-- ==== Sys2Proof/Word.lean ====
section
/-! DEFINITION. The word types of the block (spec/00_scope.md section 6.1): a byte and a u16. -/

namespace Sys2Proof

/-- An unsigned 8-bit value (00_scope.md section 6.1). -/
abbrev Byte := BitVec 8

/-- An unsigned 16-bit value, the spec's u16 (00_scope.md section 6.1). -/
abbrev Word := BitVec 16

end Sys2Proof
end

