-- ==== Sys2Proof/Machine/Constants.lean ====
section
/-! DEFINITION. The constants the wire format and the operation format fix (R8, R41). They are no parameters. -/

namespace Sys2Proof.Machine

/-- `TERM`, the terminator byte (R8). -/
def termByte : Byte := 0x7E

/-- `ESCM`, the escape-marker byte (R8). -/
def escMarker : Byte := 0x7D

/-- `XMASK`, XORed into an escaped byte (R8). -/
def escMask : Byte := 0x20

/-- `POLY`, the reflected generator polynomial (R8). -/
def poly : Word := 0x8408

/-- `SEED`, the initial checksum state (R8). -/
def seed : Word := 0xFFFF

/-- The operation word of `INIT` (R41). -/
def opInit : BitVec 2 := 0b00

/-- The operation word of `CRC16` (R41). -/
def opCrc16 : BitVec 2 := 0b01

/-- The operation word of `ENCODE` (R41). -/
def opEncode : BitVec 2 := 0b10

/-- The operation word of `FEED` (R41). -/
def opFeed : BitVec 2 := 0b11

end Sys2Proof.Machine
end

