-- ==== Sys2Proof/Machine/Checksum.lean ====
section
/-! DEFINITION. The checksum as functions of values (R48 to R50), its bit-serial form (R53), and the two bytes of a
u16 (R35). -/

namespace Sys2Proof.Machine

/-- `lo8(c) = c[7:0]` (00_scope.md section 6.2). -/
def lo8 (c : Word) : Byte := c.extractLsb' 0 8

/-- `hi8(c) = c[15:8]` (00_scope.md section 6.2). -/
def hi8 (c : Word) : Byte := c.extractLsb' 8 8

/-- `{hi, lo}`, the u16 that a trailer's two bytes stand for (R35). -/
def joinBytes (hi lo : Byte) : Word := hi ++ lo

/-- The per-byte step (R48). -/
def crcStep (s : Word) (b : Byte) : Word :=
  tab (((s ^^^ b.setWidth 16) &&& 0x00FF).setWidth 8) ^^^ (s >>> 8)

/-- The run over a sequence, from index 0 upward (R49). -/
def crcRun : Word → List Byte → Word
  | s, [] => s
  | s, b :: rest => crcRun (crcStep s b) rest

/-- The checksum function: the complement of the run from the seed (R50). -/
def checksum (bytes : List Byte) : Word := ~~~ crcRun seed bytes

/-- One byte of the bit-serial form: XOR into the state, then eight rounds (R53). -/
def bitSerialStep (s : Word) (b : Byte) : Word := crcRounds (s ^^^ b.setWidth 16)

/-- The bit-serial form over a sequence (R53). -/
def bitSerialRun : Word → List Byte → Word
  | s, [] => s
  | s, b :: rest => bitSerialRun (bitSerialStep s b) rest

/-- The result of the bit-serial form (R53). -/
def bitSerialChecksum (bytes : List Byte) : Word := ~~~ bitSerialRun seed bytes

end Sys2Proof.Machine
end

