-- ==== Sys2Proof/Syntax.lean ====
section
/-! DEFINITION. The instructions, one constructor for each row of spec/opcode_table.json, and the two encoded forms
the table has: an operation request of the host (R41) and a received byte (R37). -/

namespace Sys2Proof

/-- The rows of spec/opcode_table.json: the four operations of the host (R3, R41) and the three classes of a
received byte (R37). -/
inductive Instr where
  /-- `INIT`, op 00 (R61). -/
  | init
  /-- `CRC16 [input]`, op 01 (R51): any number of bytes. -/
  | crc16 (input : List Byte)
  /-- `ENCODE [payload], cap`, op 10 (R57). -/
  | encode (payload : List Byte) (cap : Nat)
  /-- `FEED [chunk]`, op 11 (R71): any number of bytes. -/
  | feed (chunk : List Byte)
  /-- The byte class `TERM` (R37): ends the frame. -/
  | term
  /-- The byte class `ESCM` (R37): the escape marker. -/
  | escm
  /-- The byte class `LIT` (R37): every other byte value. -/
  | lit (b : Byte)
  deriving DecidableEq, Repr

/-- The class of a received byte (R37). -/
inductive WireClass where
  | term
  | escm
  | lit (b : Byte)
  deriving DecidableEq, Repr

/-- An operation as the host issues it: the operation word `op[1:0]` and the operands of R41 and R42. A format
without an operand has it empty or zero. -/
structure Request where
  op : BitVec 2
  input : List Byte
  cap : Nat
  deriving DecidableEq, Repr

/-- What the block can be given: an operation of the host, or one received byte put before the frame walk
(the table's two spaces, "operation" and "wire byte class"; assumption logs 2 and 5). -/
inductive Issue where
  | operation (r : Request)
  | wire (b : Byte)
  deriving DecidableEq, Repr

/-- Why a request is not one that R41 lists. -/
inductive Reject where
  /-- An operand is given that the operation's row of R41 does not have. -/
  | surplusOperand
  deriving DecidableEq, Repr

end Sys2Proof
end

