-- ==== Sys2Proof/WellFormed.lean ====
section
/-! DEFINITION. Which terms of `Instr` are instructions: the byte of a `LIT` is of that class, and the payload of an
`ENCODE` respects the bound that is its precondition. -/

namespace Sys2Proof

/-- The byte is in the class `LIT` of R37: any of the 254 values that are neither `TERM` nor `ESCM`. -/
def isLiteral (b : Byte) : Bool := b != Machine.termByte && b != Machine.escMarker

/-- The term is an instruction of the table: only `LIT` restricts its operand (R37). -/
def Instr.wellFormed : Instr → Bool
  | .init => true
  | .crc16 _ => true
  | .encode _ _ => true
  | .feed _ => true
  | .term => true
  | .escm => true
  | .lit b => isLiteral b

/-- The host met the precondition of the operation on an instance with this `MAX_PACKET`: only `ENCODE` has one,
`n <= MAX_PACKET` (R54). -/
def Instr.withinBound (maxPacket : Nat) : Instr → Bool
  | .init => true
  | .crc16 _ => true
  | .encode payload _ => payload.length ≤ maxPacket
  | .feed _ => true
  | .term => true
  | .escm => true
  | .lit _ => true

/-- The instruction is one of the four operations a host issues (R3), not a byte class. -/
def Instr.isOperation : Instr → Bool
  | .init => true
  | .crc16 _ => true
  | .encode _ _ => true
  | .feed _ => true
  | .term => false
  | .escm => false
  | .lit _ => false

end Sys2Proof
end

