-- ==== Sys2Proof/Decode.lean ====
section
/-! DEFINITION. The decoder of the two encoded forms, total, and after it the encoder. -/

namespace Sys2Proof

/-- The class of a received byte, by value alone; `LIT` is matched only after `TERM` and `ESCM` fail (R37). -/
def classify (b : Byte) : WireClass :=
  if b = Machine.termByte then .term
  else if b = Machine.escMarker then .escm
  else .lit b

/-- The row of the table a byte class is. -/
def WireClass.toInstr : WireClass → Instr
  | .term => .term
  | .escm => .escm
  | .lit b => .lit b

/-- The operation a request asks for: every code of `op[1:0]` is defined (R41, R43). A request that carries an
operand its operation does not take is none that R41 lists, and is rejected by name (assumption log 3). -/
def decodeRequest (r : Request) : Except Reject Instr :=
  if r.op = Machine.opInit then
    if r.input = [] ∧ r.cap = 0 then .ok .init else .error .surplusOperand
  else if r.op = Machine.opCrc16 then
    if r.cap = 0 then .ok (.crc16 r.input) else .error .surplusOperand
  else if r.op = Machine.opEncode then .ok (.encode r.input r.cap)
  else if r.cap = 0 then .ok (.feed r.input) else .error .surplusOperand

/-- The instruction an issued entry stands for (R37, R41). -/
def decode : Issue → Except Reject Instr
  | .operation r => decodeRequest r
  | .wire b => .ok (classify b).toInstr

/-- The entry that stands for an instruction, from the table of R41 and the class values of R37. -/
def encode : Instr → Issue
  | .init => .operation ⟨Machine.opInit, [], 0⟩
  | .crc16 input => .operation ⟨Machine.opCrc16, input, 0⟩
  | .encode payload cap => .operation ⟨Machine.opEncode, payload, cap⟩
  | .feed chunk => .operation ⟨Machine.opFeed, chunk, 0⟩
  | .term => .wire Machine.termByte
  | .escm => .wire Machine.escMarker
  | .lit b => .wire b

/-- The entry that a word of spec/opcode_table.json stands for, its operands empty and zero. The table has two
spaces of words, 2-bit operation words and 8-bit received bytes, and a word in whole bytes does not say which: a word
below 4 is read as an operation word (assumption log 18). -/
def issueOfTableWord (nbits w : Nat) : Option Issue :=
  if 256 ≤ w then none
  else if nbits < 8 ∨ w < 4 then some (.operation ⟨BitVec.ofNat 2 w, [], 0⟩)
  else some (.wire (BitVec.ofNat 8 w))

/-- The instruction the decoder reads from a word of spec/opcode_table.json; none where it refuses. -/
def decodeTableWord (nbits w : Nat) : Option Instr :=
  match issueOfTableWord nbits w with
  | none => none
  | some e =>
    match decode e with
    | .ok i => some i
    | .error _ => none

end Sys2Proof
end

