-- ==== Sys2Proof/Machine/Flags.lean ====
section
/-! DEFINITION. The only flag of the block, `ESCF` (R17): what sets it, what clears it, what it chooses. -/

namespace Sys2Proof.Machine

/-- `ESCF` after a walked byte: a marker sets it, an emitted byte clears it (R17, R38). A terminator is never walked
(R37) and leaves it. -/
def escfAfter (f : Bool) : WireClass → Bool
  | .term => f
  | .escm => true
  | .lit _ => false

/-- The bytes a walked byte emits: nothing for a marker, the byte or the byte XOR 0x20 for any other (R17, R38). -/
def emitted (f : Bool) : WireClass → List Byte
  | .term => []
  | .escm => []
  | .lit b => [if f then b ^^^ escMask else b]

end Sys2Proof.Machine
end

