-- ==== Sys2Proof/Machine/Operands.lean ====
section
/-! DEFINITION. The operand and frame forms: escaping, the trailer, the frame (R33 to R36), the unescape function (R38)
and the first index of a byte (00_scope.md section 6.4). -/

namespace Sys2Proof.Machine

/-- `esc(b)`: the escape pair for 0x7E and 0x7D, the byte itself otherwise (R33). -/
def esc (b : Byte) : List Byte :=
  if b = termByte ∨ b = escMarker then [escMarker, b ^^^ escMask] else [b]

/-- `esc_seq(s)` (R34). -/
def escSeq : List Byte → List Byte
  | [] => []
  | b :: rest => esc b ++ escSeq rest

/-- The trailer of a checksum: low byte first, then high byte (R24, R35). -/
def trailer (c : Word) : List Byte := [lo8 c, hi8 c]

/-- `frame(p)` (R36): escaped payload, escaped trailer bytes, terminator. -/
def frame (p : List Byte) : List Byte :=
  escSeq p ++ esc (lo8 (checksum p)) ++ esc (hi8 (checksum p)) ++ [termByte]

/-- The walk of R38 from the flag value `f`. -/
def unescFrom : Bool → List Byte → List Byte
  | _, [] => []
  | f, b :: rest =>
    if b = escMarker then unescFrom true rest
    else if f then (b ^^^ escMask) :: unescFrom false rest
    else b :: unescFrom false rest

/-- `unesc(s)`: the walk starts with the flag clear (R38). -/
def unesc (s : List Byte) : List Byte := unescFrom false s

/-- `first_index(s, b)` (00_scope.md section 6.4). -/
def firstIndex : List Byte → Byte → Option Nat
  | [], _ => none
  | a :: rest, b => if a = b then some 0 else (firstIndex rest b).map (· + 1)

/-- The worst-case size of the frame of an `n`-byte payload (R36, R58). -/
def worstCase (n : Nat) : Nat := 2 * (n + 2) + 1

end Sys2Proof.Machine
end

