-- ==== Sys2Proof/Config.lean ====
section
/-! DEFINITION. What the spec leaves to the implementation, and its unspecified values: constants with no body, so
that no proof can see what they are. -/

namespace Sys2Proof.Config

/-- By how much `MAX_PACKET` exceeds 3. The spec gives `MAX_PACKET` no value (R6, U1): nothing here can see one.
Assumption log 1. -/
opaque maxPacketExcess : Nat

/-- `MAX_PACKET` of the instance that `State.reset` describes: any natural number `>= 3` (R6, D2). A statement
about the machine speaks of the field `State.maxPacket`, which may hold any value. -/
def maxPacket : Nat := maxPacketExcess + 3

/-- FREE VALUE. The bytes found in the output area `OUT` after an `ENCODE` that failed (R60, U2: "any bytes"), one
for each value of the counter `State.freeCtr`. Assumption log 11. -/
opaque freeByte : Nat → Byte

end Sys2Proof.Config
end

