-- ==== Sys2Proof/Machine/State.lean ====
section
/-! DEFINITION. The state of one instance of the block, the results it returns, and the reasons a step can stop. -/

namespace Sys2Proof.Machine

/-- The five error kinds, a closed list (R78). An error is a result of an operation, not a stop (R77). -/
inductive ErrKind where
  /-- Raised by `ENCODE` (R79). -/
  | bufferTooSmall
  /-- Raised by `FEED` (R80). -/
  | tooMuchData
  /-- Raised by `FEED` (R81). -/
  | packetTooLarge
  /-- Raised by `FEED` (R82). -/
  | packetTooShort
  /-- Raised by `FEED` (R83). -/
  | checksumMismatch
  deriving DecidableEq, Repr

/-- The result of an operation (R44). -/
inductive Result where
  /-- `Ok` with no value, of `INIT`. -/
  | ok
  /-- `Ok` with a u16, of `CRC16`. -/
  | okChecksum (c : Word)
  /-- `Ok` with the frame bytes, of `ENCODE`. -/
  | okFrame (f : List Byte)
  /-- `Ok` with the payload bytes, of `FEED`. -/
  | okPayload (p : List Byte)
  /-- `None`, of `FEED`: no complete frame yet. -/
  | noFrame
  /-- `Err(kind)`. -/
  | err (k : ErrKind)
  deriving DecidableEq, Repr

/-- A storage space of bytes, as a list of cells in one canonical form: indices strictly rising, and no cell that
holds what an unlisted index reads as (`Memory.wf`, Machine/Ops.lean). -/
abbrev Memory := List Host.Cell

/-- One instance of the block. INVENTORY.md lists each field with its rule and reset value. -/
structure State where
  /-- `MAX_PACKET`, the constant of the instance (R6); no operation changes it. -/
  maxPacket : Nat
  /-- The instance was reset or `INIT`ed at least once (R92). -/
  constructed : Bool
  /-- `BUF`, the Reassembly Buffer storage, indices `0` to `CAP - 1` (R13). -/
  buf : Memory
  /-- `LEN`, the occupied length (R14). -/
  len : Nat
  /-- `CRCS`, the checksum state, dead between computations (R16). -/
  crcs : Word
  /-- `ESCF`, the escape flag of the frame walk (R17). -/
  escf : Bool
  /-- `u`, the bytes the frame walk has emitted (R38, R66). -/
  u : List Byte
  /-- `OUT`, the host's output area, written by `ENCODE` (R20, R23). -/
  out : Memory
  /-- How many free bytes have been used (R60, assumption log 11). -/
  freeCtr : Nat
  /-- The entries issued to the block and not yet executed, oldest first (R3). -/
  port : List Issue
  /-- The results returned to the host, oldest first (R44, R103); the block never reads it (R18). -/
  returned : List Result
  deriving DecidableEq, Repr

/-- Why the machine stops with a fault. The spec has no trap (R77): the one fault guards the model itself. -/
inductive Fault where
  /-- Raised by a read or write of `BUF` at an index that does not exist, `>= CAP` (R13). Safe: the machine stops.
  No operation reaches it from any state (R21, R104). -/
  | bufIndexOutOfRange
  deriving DecidableEq, Repr

/-- Why the machine gives no meaning. -/
inductive Refusal where
  /-- Answered by `exec` for an instruction that has no meaning yet. Safe: the machine stops. -/
  | notModelled (mnemonic : String)
  /-- Answered by `ENCODE` with `n > MAX_PACKET`: "a model refuses it" (R54, U5). Safe: the machine stops. -/
  | payloadTooLong
  /-- Answered by `FEED` on an instance that was never reset or `INIT`ed: it "is refused" (R92, U8). Safe: the
  machine stops. -/
  | neverConstructed
  /-- Answered by `LIT` with a byte that is `TERM` or `ESCM`: such a term is no instruction of the table (R37) and
  the decoder never gives it. Safe: the machine stops. -/
  | notALiteral
  /-- Answered by a step whose issued request is none that R41 lists. Safe: the machine stops. -/
  | malformedRequest (r : Reject)
  deriving DecidableEq, Repr

/-- The machine right after reset (R91; 10_state.md section 7): constructed, nothing pending. `LEN = 0` is the
spec's; the values the spec does not give are named in assumption logs 1, 2, 4, 6, 8, 9, 10, 11 and 13. -/
def State.reset : State where
  maxPacket := Config.maxPacket
  constructed := true
  buf := []
  len := 0
  crcs := 0xFFFF
  escf := false
  u := []
  out := []
  freeCtr := 0
  port := []
  returned := []

end Sys2Proof.Machine
end

