-- ==== Sys2Proof/Machine/Ops.lean ====
section
/-! DEFINITION. The named operations over memory and state that the meanings share: the storage spaces, returning a
result, raising an error, reset, the checksum state, the frame walk, the emission primitive. -/

namespace Sys2Proof.Machine

/-! ### Storage spaces -/

/-- What an index that is not listed reads as. The spec gives no content (R13, U3): DESIGN CHOICE, assumption log 6. -/
def unlistedByte : Byte := 0x00

/-- The byte at index `a`. -/
def Memory.read : Memory → Nat → Byte
  | [], _ => unlistedByte
  | (k, v) :: rest, a => if k = a then v else Memory.read rest a

/-- Put `b` at index `a`, keeping the canonical form. -/
def Memory.write : Memory → Nat → Byte → Memory
  | [], a, b => if b = unlistedByte then [] else [(a, b)]
  | (k, v) :: rest, a, b =>
    if a < k then (if b = unlistedByte then (k, v) :: rest else (a, b) :: (k, v) :: rest)
    else if a = k then (if b = unlistedByte then rest else (a, b) :: rest)
    else (k, v) :: Memory.write rest a b

/-- `MemRead(space:a, n)`: `n` consecutive bytes (00_scope.md section 6.5). -/
def Memory.readBytes (m : Memory) : Nat → Nat → List Byte
  | _, 0 => []
  | a, n + 1 => m.read a :: Memory.readBytes m (a + 1) n

/-- `MemWrite(space:a, n, v)`: a byte sequence from `a` on (00_scope.md section 6.5). -/
def Memory.writeBytes : Memory → Nat → List Byte → Memory
  | m, _, [] => m
  | m, a, b :: rest => Memory.writeBytes (m.write a b) (a + 1) rest

/-- The canonical form from index `lo` on. -/
def Memory.wfFrom : Nat → Memory → Bool
  | _, [] => true
  | lo, (k, v) :: rest => decide (lo ≤ k) && (v != unlistedByte) && Memory.wfFrom (k + 1) rest

/-- The canonical form: indices strictly rising, no cell that holds what an unlisted index reads as. -/
def Memory.wf (m : Memory) : Bool := m.wfFrom 0

/-- Every listed index is below `n`. -/
def Memory.below (n : Nat) (m : Memory) : Bool := m.all fun c => decide (c.1 < n)

/-! ### The Reassembly Buffer -/

/-- `CAP = 2 * MAX_PACKET` (R7). -/
def State.bufCap (s : State) : Nat := 2 * s.maxPacket

/-- `PEND = BUF[0..LEN)` (R15). -/
def State.pend (s : State) : List Byte := s.buf.readBytes 0 s.len

/-- `MemRead(BUF:a, n)`. An index `>= CAP` does not exist (R13). -/
def State.bufRead (s : State) (a n : Nat) : Except Fault (List Byte) :=
  if a + n ≤ s.bufCap then .ok (s.buf.readBytes a n) else .error .bufIndexOutOfRange

/-- `MemWrite(BUF:a, n, bytes)`. An index `>= CAP` does not exist (R13). -/
def State.bufWrite (s : State) (a : Nat) (bytes : List Byte) : Except Fault State :=
  if a + bytes.length ≤ s.bufCap then .ok { s with buf := s.buf.writeBytes a bytes }
  else .error .bufIndexOutOfRange

/-- Write `LEN`. -/
def State.setLen (s : State) (n : Nat) : State := { s with len := n }

/-- Go on with the value of an access that may fault. -/
def orFault {α : Type} (x : Except Fault α) (k : α → Host.Outcome State Fault Refusal) :
    Host.Outcome State Fault Refusal :=
  match x with
  | .ok a => k a
  | .error f => .fault f

/-! ### Results and errors -/

/-- Return a result to the host (R44). -/
def State.respond (s : State) (r : Result) : State := { s with returned := s.returned ++ [r] }

/-- `raise <kind>`: end the operation with an error as its result (R77). Nothing is saved and control goes nowhere
(R86); state written before stays written (00_scope.md section 6.5). There is no return from it (R87). -/
def State.raiseError (s : State) (k : ErrKind) : State := s.respond (.err k)

/-- The `status[2:0]` code of a result (R44). -/
def Result.status : Result → BitVec 3
  | .ok => 0
  | .okChecksum _ => 0
  | .okFrame _ => 0
  | .okPayload _ => 0
  | .noFrame => 1
  | .err .bufferTooSmall => 2
  | .err .tooMuchData => 3
  | .err .packetTooLarge => 4
  | .err .packetTooShort => 5
  | .err .checksumMismatch => 6

/-- Reset of an instance: `LEN <- 0` and nothing else; the instance is constructed (R91, R92). -/
def State.applyReset (s : State) : State := { s with len := 0, constructed := true }

/-! ### The checksum state -/

/-- `CRCS <- 0xFFFF` (R51). -/
def State.crcStart (s : State) : State := { s with crcs := seed }

/-- `CRCS <- crc_step(CRCS, b)` (R51). -/
def State.crcByte (s : State) (b : Byte) : State := { s with crcs := crcStep s.crcs b }

/-- One whole checksum computation over a sequence, in order (R51). -/
def State.runChecksum (s : State) (bytes : List Byte) : State := bytes.foldl State.crcByte s.crcStart

/-- `NOT16(CRCS)`, the result of the computation (R50, R51). -/
def State.crcResult (s : State) : Word := ~~~ s.crcs

/-! ### The frame walk -/

/-- A walk starts with the flag clear and nothing emitted (R17, R38). The walk's end discards both as well. -/
def State.walkReset (s : State) : State := { s with escf := false, u := [] }

/-- One walked byte, by its class (R37, R38): it emits into `u` and sets or clears `ESCF`. -/
def State.walkClass (s : State) (c : WireClass) : State :=
  { s with escf := escfAfter s.escf c, u := s.u ++ emitted s.escf c }

/-- One walked byte. -/
def State.walkByte (s : State) (b : Byte) : State := s.walkClass (classify b)

/-- The whole walk over the bytes of one frame, from the start (R66). -/
def State.walk (s : State) (bytes : List Byte) : State := bytes.foldl State.walkByte s.walkReset

/-- The verdict on the walked bytes `u` of one frame, in the order of R84: the size limit (R67), the length check
(R69), the checksum (R70). -/
def State.verdict (s : State) : State :=
  if s.maxPacket < s.u.length then s.raiseError .packetTooLarge
  else if s.u.length ≤ 2 then s.raiseError .packetTooShort
  else
    let m := s.u.length
    let p := s.u.take (m - 2)
    let lo := s.u.getD (m - 2) 0
    let hi := s.u.getD (m - 1) 0
    let s' := s.runChecksum p
    if lo ≠ lo8 s'.crcResult ∨ hi ≠ hi8 s'.crcResult then s'.raiseError .checksumMismatch
    else s'.respond (.okPayload p)

/-- The end of a frame: its verdict is the result, and the walk is over, its flag discarded (R17, R38). -/
def State.endFrame (s : State) : State := s.verdict.walkReset

/-! ### The emission primitive -/

/-- `emit(seq)` at write position `w` (R55): the whole sequence is written or none of it. An error carries the state in
which `ErrBufferTooSmall` is raised. -/
def State.emit (cap : Nat) (seq : List Byte) (s : State) (w : Nat) : Except State (State × Nat) :=
  if w + seq.length > cap then .error s
  else .ok ({ s with out := s.out.writeBytes w seq }, w + seq.length)

/-- Emit each byte of a sequence escaped, one emission for a byte; the first failing one ends it (R56). -/
def State.emitEscaped (cap : Nat) : List Byte → State → Nat → Except State (State × Nat)
  | [], s, w => .ok (s, w)
  | b :: rest, s, w =>
    match s.emit cap (esc b) w with
    | .error s' => .error s'
    | .ok (s', w') => State.emitEscaped cap rest s' w'

/-- `n` free bytes from the counter value `ctr` on (R60, assumption log 11). -/
def freeBytes (ctr n : Nat) : List Byte := (List.range n).map fun i => Config.freeByte (ctr + i)

/-- After a failed `ENCODE` the content of `OUT[0..cap)` is any value; no byte at an index `>= cap` is written (R60,
U2). -/
def State.scrambleOut (s : State) (cap : Nat) : State :=
  { s with out := s.out.writeBytes 0 (freeBytes s.freeCtr cap), freeCtr := s.freeCtr + cap }

/-! ### The host's port -/

/-- Take the oldest entry that was issued; none when the block is idle (R3, R12). -/
def State.fetch (s : State) : Option (Issue × State) :=
  match s.port with
  | [] => none
  | e :: rest => some (e, { s with port := rest })

end Sys2Proof.Machine
end

