-- ==== Sys2Proof/Machine/ChecksumEngine.lean ====
section
/-! DEFINITION. The Checksum Engine's operation: `CRC16` (R51). -/

namespace Sys2Proof.Machine

/-- `CRC16` (R51): cannot fail; reads and writes neither `BUF` nor `LEN`. -/
def execCrc16 (input : List Byte) (s : State) : Host.Outcome State Fault Refusal :=
  let s' := s.runChecksum input
  .next (s'.respond (.okChecksum s'.crcResult))

end Sys2Proof.Machine
end

