-- ==== Sys2Proof/Machine/FrameEncoder.lean ====
section
/-! DEFINITION. The Frame Encoder's operation: `ENCODE` (R54 to R60). -/

namespace Sys2Proof.Machine

/-- The three steps of the encoder, in order (R56): the payload, the checksum's two bytes, the terminator. It answers
the state and the number of bytes written, or the state in which an emission failed. -/
def State.encodeSteps (payload : List Byte) (cap : Nat) (s : State) : Except State (State × Nat) :=
  match s.emitEscaped cap payload 0 with
  | .error s1 => .error s1
  | .ok (s1, w1) =>
    let s2 := s1.runChecksum payload
    match s2.emitEscaped cap (trailer s2.crcResult) w1 with
    | .error s3 => .error s3
    | .ok (s3, w3) => s3.emit cap [termByte] w3

/-- `ENCODE` (R57). The bound of R54 is a precondition: beyond it the operation has no meaning and is refused. -/
def execEncode (payload : List Byte) (cap : Nat) (s : State) : Host.Outcome State Fault Refusal :=
  if s.maxPacket < payload.length then .refused .payloadTooLong
  else
    match s.encodeSteps payload cap with
    | .error s' => .next ((s'.scrambleOut cap).raiseError .bufferTooSmall)
    | .ok (s', w) => .next (s'.respond (.okFrame (s'.out.readBytes 0 w)))

end Sys2Proof.Machine
end

