-- ==== Sys2Proof/Machine/FrameReassembler.lean ====
section
/-! DEFINITION. The Frame Reassembler's operations: `INIT` (R61) and `FEED` (R62 to R71), one operation for each step
of feed. -/

namespace Sys2Proof.Machine

/-- `INIT` (R61): the effect of reset (R91), and the result `Ok`. -/
def execInit (s : State) : Host.Outcome State Fault Refusal := .next (s.applyReset.respond .ok)

/-- Step 2, capacity check and silent reset (R63). -/
def State.makeRoom (s : State) (n : Nat) : State := if s.len + n > s.bufCap then s.setLen 0 else s

/-- Step 3, append (R64). -/
def State.append (s : State) (chunk : List Byte) : Except Fault State :=
  match s.bufWrite s.len chunk with
  | .ok s' => .ok (s'.setLen (s.len + chunk.length))
  | .error f => .error f

/-- Step 4, boundary search (R65). -/
def State.findTerminator (s : State) : Except Fault (Option Nat) :=
  match s.bufRead 0 s.len with
  | .ok bytes => .ok (firstIndex bytes termByte)
  | .error f => .error f

/-- Step 5, unescape the bytes before the terminator at `t` (R66). -/
def State.unescapeFrame (s : State) (t : Nat) : Except Fault State :=
  match s.bufRead 0 t with
  | .ok bytes => .ok (s.walk bytes)
  | .error f => .error f

/-- Step 6, consume: the `r` bytes after the terminator move to the front, all read before any is written (R68,
R104). -/
def State.consume (s : State) (t : Nat) : Except Fault State :=
  let r := s.len - (t + 1)
  match s.bufRead (t + 1) r with
  | .ok bytes =>
    match s.bufWrite 0 bytes with
    | .ok s' => .ok (s'.setLen r)
    | .error f => .error f
  | .error f => .error f

/-- `FEED` (R71), the steps in the order of R74. On an instance never constructed it is refused (R92). -/
def execFeed (chunk : List Byte) (s : State) : Host.Outcome State Fault Refusal :=
  if s.constructed = false then .refused .neverConstructed
  else if chunk.length > s.bufCap then .next (s.raiseError .tooMuchData)
  else
    orFault ((s.makeRoom chunk.length).append chunk) fun s1 =>
    orFault s1.findTerminator fun found =>
    match found with
    | none => .next (s1.respond .noFrame)
    | some t =>
      orFault (s1.unescapeFrame t) fun s2 =>
      orFault (s2.consume t) fun s3 => .next s3.endFrame

end Sys2Proof.Machine
end

