-- ==== Sys2Proof/Machine/WireClasses.lean ====
section
/-! DEFINITION. The three classes of a received byte (R37) as single actions of the frame walk: what `FEED` does with
one byte of a frame (R38, R66) and with the terminator that ends it. They touch only the walk's own state, the checksum
state and, for the terminator, the result (assumption log 5). None of the three is refused on an instance never
constructed, which only `FEED` is (R92): DESIGN CHOICE, assumption log 26. -/

namespace Sys2Proof.Machine

/-- `TERM`: ends the frame (R37). The walk covers only the bytes before it, so it emits nothing; the frame walked so
far is judged (R75 `judge`), and the flag is discarded (R38). It executes on an instance never constructed too: DESIGN
CHOICE, assumption log 26. -/
def execTerm (s : State) : Host.Outcome State Fault Refusal := .next s.endFrame

/-- `ESCM`: sets `ESCF`, emits nothing (R37, R38). It executes on an instance never constructed too: DESIGN CHOICE,
assumption log 26. -/
def execEscm (s : State) : Host.Outcome State Fault Refusal := .next (s.walkClass .escm)

/-- `LIT b`: emits the byte, or the byte XOR 0x20 if `ESCF` is set, then clears `ESCF` (R37, R38). A byte of another
class is no `LIT`. It executes on an instance never constructed too: DESIGN CHOICE, assumption log 26. -/
def execLit (b : Byte) (s : State) : Host.Outcome State Fault Refusal :=
  if isLiteral b then .next (s.walkClass (.lit b)) else .refused .notALiteral

end Sys2Proof.Machine
end

