-- ==== Sys2Proof/Machine/Dispatch.lean ====
section
/-! DEFINITION. One arm for each instruction. -/

namespace Sys2Proof.Machine

/-- The effect of an instruction. -/
def exec (i : Instr) (s : State) : Host.Outcome State Fault Refusal :=
  match i with
  | .init => Sys2Proof.Machine.execInit s
  | .crc16 input => Sys2Proof.Machine.execCrc16 input s
  | .encode payload cap => Sys2Proof.Machine.execEncode payload cap s
  | .feed chunk => Sys2Proof.Machine.execFeed chunk s
  | .term => Sys2Proof.Machine.execTerm s
  | .escm => Sys2Proof.Machine.execEscm s
  | .lit b => Sys2Proof.Machine.execLit b s

end Sys2Proof.Machine
end

