-- ==== Sys2Proof/Machine/Step.lean ====
section
/-! DEFINITION. One step: the block executes the oldest entry issued to it, or is idle. -/

namespace Sys2Proof.Machine

/-- One step (R3, R12, R27): take the oldest issued entry, decode it, execute it whole. With nothing issued the block is
idle and its state stays. -/
def step (s : State) : Host.Outcome State Fault Refusal :=
  match s.fetch with
  | none => .next s
  | some (e, s') =>
    match decode e with
    | .ok i => exec i s'
    | .error r => .refused (.malformedRequest r)

/-- The state with the instruction of a table word issued before everything else, so that the next step executes it.
A word that is none of the table's changes nothing. -/
def State.withFetchWord (s : State) (nbits w : Nat) : State :=
  match issueOfTableWord nbits w with
  | none => s
  | some e => { s with port := e :: s.port }

end Sys2Proof.Machine
end

