-- ==== Sys2Proof/Machine/HostIdioms.lean ====
section
/-! DEFINITION. What a host does with the operations: sequences of them, and the pseudo-operations of R45. -/

namespace Sys2Proof.Machine

/-- A sequence of instructions, one after another, ending at the first stop. -/
def execAll : List Instr → State → Host.Outcome State Fault Refusal
  | [], s => .next s
  | i :: rest, s =>
    match exec i s with
    | .next s' => execAll rest s'
    | .fault f => .fault f
    | .refused r => .refused r

/-- The instructions issued to the block, in order, after what was issued before. -/
def State.issue (s : State) (is : List Instr) : State := { s with port := s.port ++ is.map encode }

/-- `POLL`: a `FEED` with the empty chunk (R45). -/
def poll : Instr := .feed []

/-- `ENCODE` without a capacity: the worst-case capacity (R45). -/
def encodeWorstCase (payload : List Byte) : Instr := .encode payload (worstCase payload.length)

/-- A fresh instance with this `MAX_PACKET` (R9, R91). -/
def freshInstance (maxPacket : Nat) : State := { State.reset with maxPacket := maxPacket }

/-- `unescape_and_validate(f)`: `INIT`, then `FEED f`, on a fresh instance; `FEED`'s result (R45). -/
def unescapeAndValidate (maxPacket : Nat) (f : List Byte) : Option Result :=
  match execAll [.init, .feed f] (freshInstance maxPacket) with
  | .next s => s.returned.getLast?
  | .fault _ => none
  | .refused _ => none

/-- `POLL` until the result is `None`, at most `n` times. -/
def drainAtMost : Nat → State → Host.Outcome State Fault Refusal
  | 0, s => .next s
  | n + 1, s =>
    match exec poll s with
    | .next s' => if s'.returned.getLast? = some .noFrame then .next s' else drainAtMost n s'
    | .fault f => .fault f
    | .refused r => .refused r

/-- `DRAIN`: repeat `POLL` until the result is `None` (R45). It ends after at most as many `POLL`s as there are
terminators pending, plus one (R72). -/
def drain (s : State) : Host.Outcome State Fault Refusal := drainAtMost (s.pend.count termByte + 1) s

end Sys2Proof.Machine
end

