-- ==== Sys2Proof/Machine/PureView.lean ====
section
/-! DEFINITION. `FEED` as a function on pending bytes (R75), the second definition of the same machine, and the frames
that a pending sequence holds. The step does not use this file; statements compare the machine with it. -/

namespace Sys2Proof.Machine

/-- The verdict on an unescaped sequence `u`: `judge` of R75 after its first line. -/
def judgeUnescaped (maxPacket : Nat) (u : List Byte) : Result :=
  if maxPacket < u.length then .err .packetTooLarge
  else if u.length ≤ 2 then .err .packetTooShort
  else
    let p := u.take (u.length - 2)
    if u.drop (u.length - 2) = trailer (checksum p) then .okPayload p else .err .checksumMismatch

/-- The verdict on the bytes of one frame, those before its terminator: `judge` (R75). -/
def judge (maxPacket : Nat) (s : List Byte) : Result := judgeUnescaped maxPacket (unesc s)

/-- The bytes pending after the capacity check and the append of a chunk that passed the overflow check: `Q` of R75. -/
def pendingAfterAppend (maxPacket : Nat) (pend chunk : List Byte) : List Byte :=
  (if pend.length + chunk.length > 2 * maxPacket then [] else pend) ++ chunk

/-- `FEED` as a function of the pending bytes and the chunk (R75): the new pending bytes and the result. -/
def feedPure (maxPacket : Nat) (pend chunk : List Byte) : List Byte × Result :=
  if chunk.length > 2 * maxPacket then (pend, .err .tooMuchData)
  else
    let q := pendingAfterAppend maxPacket pend chunk
    match firstIndex q termByte with
    | none => (q, .noFrame)
    | some t => (q.drop (t + 1), judge maxPacket (q.take t))

/-- The frames that a byte sequence holds, each without its terminator, and the bytes after the last terminator
(R32, R40). -/
def splitFrames : List Byte → List (List Byte) × List Byte
  | [] => ([], [])
  | b :: rest =>
    if b = termByte then ([] :: (splitFrames rest).1, (splitFrames rest).2)
    else
      match (splitFrames rest).1 with
      | [] => ([], b :: (splitFrames rest).2)
      | f :: fs => ((b :: f) :: fs, (splitFrames rest).2)

end Sys2Proof.Machine
end

