-- ==== Sys2Proof/Safety.lean ====
section
/-! DEFINITION. What counts as a legal state and a safe run, and the comparisons of states that claims use. -/

namespace Sys2Proof.Machine

/-- The legal states of an instance: `MAX_PACKET >= 3` (R6), `LEN <= CAP` (R14, R15), and the two storage spaces in
their canonical form with no byte of `BUF` at an index that does not exist (R13). -/
abbrev State.Inv (s : State) : Prop :=
  3 ≤ s.maxPacket ∧ s.len ≤ s.bufCap ∧ s.buf.wf = true ∧ s.buf.below s.bufCap = true ∧ s.out.wf = true

/-- The instructions respect the host's duties: each is an instruction of the table, and each `ENCODE` its bound
(R54, R95). -/
abbrev lawful (maxPacket : Nat) (is : List Instr) : Prop :=
  ∀ i ∈ is, i.wellFormed = true ∧ i.withinBound maxPacket = true

/-- Two instances that the host cannot tell apart by anything it issues later: the same parameter, both or neither
constructed, the same pending bytes (R15, R19). -/
abbrev State.alike (s t : State) : Prop :=
  s.maxPacket = t.maxPacket ∧ s.constructed = t.constructed ∧ s.pend = t.pend

/-- The state after steps 2 and 3 of feed: room made, the chunk appended at `LEN` (R63, R64). -/
def State.appended (s : State) (chunk : List Byte) : State :=
  let r := s.makeRoom chunk.length
  { r with buf := r.buf.writeBytes r.len chunk, len := r.len + chunk.length }

/-- The state after step 6 of feed: the bytes after the terminator stand at the front (R68). -/
def State.consumed (s : State) (rest : List Byte) : State :=
  { s with buf := s.buf.writeBytes 0 rest, len := rest.length }

/-- The chunk passes step 1 of feed and completes a frame: after the append, `f` are the bytes before the first
terminator and `rest` those after it (R62, R65). -/
abbrev State.completes (s : State) (chunk f rest : List Byte) : Prop :=
  s.constructed = true ∧ chunk.length ≤ s.bufCap ∧ s.buf.wf = true ∧ termByte ∉ f ∧
    pendingAfterAppend s.maxPacket s.pend chunk = f ++ termByte :: rest

/-- The payloads a reassembler with this `MAX_PACKET` can deliver when their frame is fed to it (R73). -/
abbrev deliverable (maxPacket : Nat) (p : List Byte) : Prop :=
  1 ≤ p.length ∧ p.length + 2 ≤ maxPacket ∧ (frame p).length ≤ 2 * maxPacket

/-- Constructed, canonical, and nothing pending: what reset leaves (R91), whatever the rest of the state holds. -/
abbrev State.fresh (s : State) : Prop := s.constructed = true ∧ s.buf.wf = true ∧ s.pend = []

/-- A frame with the payload `p` whose trailer stands for `c`, whatever the checksum is (R76 c). -/
def frameWithTrailer (p : List Byte) (c : Word) : List Byte := escSeq (p ++ trailer c) ++ [termByte]

end Sys2Proof.Machine
end

