-- ==== Sys2Proof/Certificates/Slice0/Obligations.lean ====
section
/-! DEFINITION. The statements about the machine. The listing with their sources is OBLIGATIONS.json. -/

open Sys2Proof Sys2Proof.Machine

/-! ### Encoding -/

/-- Decode of encode is the instruction, for every well-formed instruction and every operand value. -/
def Obligations.DecodeEncodeRoundTrip : Prop :=
  ∀ i : Instr, i.wellFormed = true → decode (encode i) = .ok i

/-- What decodes, decodes to a well-formed instruction, and no other entry decodes to it: no bit of an entry is
dropped. That no other entry decodes to it is so because a surplus operand is refused (MODEL'S CHOICE: assumption
log 3). -/
def Obligations.EncodeDecodeRoundTrip : Prop :=
  ∀ (e : Issue) (i : Instr), decode e = .ok i → encode i = e ∧ i.wellFormed = true

/-- R43 with the table of R41: all four operation words are defined. -/
def Obligations.EveryOperationWordIsDefined : Prop :=
  (∀ op : BitVec 2, ∃ i, decode (.operation ⟨op, [], 0⟩) = .ok i ∧ i.isOperation = true) ∧
  decode (.operation ⟨0b00, [], 0⟩) = .ok .init ∧
  (∀ input, decode (.operation ⟨0b01, input, 0⟩) = .ok (.crc16 input)) ∧
  (∀ input cap, decode (.operation ⟨0b10, input, cap⟩) = .ok (.encode input cap)) ∧
  (∀ input, decode (.operation ⟨0b11, input, 0⟩) = .ok (.feed input))

/-- The class of a received byte is decided by its value alone, and every byte has exactly one (R37). -/
def Obligations.ReceivedByteHasItsClass : Prop :=
  decode (.wire 0x7E) = .ok .term ∧ decode (.wire 0x7D) = .ok .escm ∧
  ∀ b : Byte, b ≠ 0x7E → b ≠ 0x7D → decode (.wire b) = .ok (.lit b)

/-- Words of spec/opcode_table.json and the rows they are: sanity. That a word below 4 is an operation word is the
MODEL'S CHOICE: assumption log 18. -/
def Obligations.TableWordsDecode : Prop :=
  decodeTableWord 8 0b00 = some .init ∧ decodeTableWord 8 0b01 = some (.crc16 []) ∧
  decodeTableWord 8 0b10 = some (.encode [] 0) ∧ decodeTableWord 8 0b11 = some (.feed []) ∧
  decodeTableWord 8 0b01111110 = some .term ∧ decodeTableWord 8 0b01111101 = some .escm ∧
  decodeTableWord 8 0b01000001 = some (.lit 0x41)

/-! ### The step -/

/-- A step executes the oldest issued entry, whole, on the state without that entry; with nothing issued the block is
idle and its state stays (R12; MODEL'S CHOICE of the form of an idle step and of the port: assumption log 2). -/
def Obligations.StepRunsTheDecodedInstruction : Prop :=
  (∀ (s : State) (e : Issue) (rest : List Issue) (i : Instr), s.port = e :: rest → decode e = .ok i →
    step s = exec i { s with port := rest }) ∧
  ∀ s : State, s.port = [] → step s = .next s

/-- A request is refused exactly when it carries an operand that its operation does not take. MODEL'S CHOICE:
assumption log 3. -/
def Obligations.SurplusOperandIsRefused : Prop :=
  ∀ (s : State) (r : Request) (rest : List Issue), s.port = .operation r :: rest →
    (((r.op = 0b00 ∧ (r.input ≠ [] ∨ r.cap ≠ 0)) ∨ ((r.op = 0b01 ∨ r.op = 0b11) ∧ r.cap ≠ 0)) ↔
      step s = .refused (.malformedRequest .surplusOperand))

/-- Instructions issued to the port run one after another, in the order of their issue, to the same outcome, whether a
state or a stop (R3, R27, R30). MODEL'S CHOICE that entries wait in the port, without a bound, and that a step executes
one: assumption log 2. -/
def Obligations.IssuedInstructionsRunInOrder : Prop :=
  ∀ (s : State) (is : List Instr), s.port = [] → (∀ i ∈ is, i.wellFormed = true) →
    Sys2Proof.core.run is.length (s.issue is) = execAll is s

/-! ### The checksum -/

/-- The table, written out entry by entry, holds what the construction of R46 gives. The construction is the spec's own
from general knowledge (G1; PRESUMED: assumption log 15). -/
def Obligations.TableIsTheConstruction : Prop :=
  ∀ i : Byte, tab i = tabConstruction i

/-- The table is linear over XOR (the remark of R47). -/
def Obligations.TableIsLinearOverXor : Prop :=
  ∀ a b : Byte, tab (a ^^^ b) = tab a ^^^ tab b

/-- The table-driven computation equals the bit-serial one, for every sequence (R53). -/
def Obligations.TableFormEqualsBitSerialForm : Prop :=
  ∀ bytes : List Byte, checksum bytes = bitSerialChecksum bytes

/-- Running a sequence followed by its own checksum, low byte first, ends at 0xF0B8, so its checksum is 0x0F47
(the remark of R51, G5). -/
def Obligations.ChecksumResidueIsConstant : Prop :=
  ∀ p : List Byte, crcRun seed (p ++ trailer (checksum p)) = 0xF0B8 ∧
    checksum (p ++ trailer (checksum p)) = 0x0F47

/-- R50: the complement of the run from 0xFFFF; the empty sequence gives 0x0000. -/
def Obligations.ChecksumIsTheComplementedRun : Prop :=
  (∀ bytes : List Byte, checksum bytes = ~~~ crcRun 0xFFFF bytes) ∧ checksum [] = 0x0000

/-- R51: `CRC16`, op 01, completes in every state and for every length with the checksum of its input as its result,
and changes nothing but the operation-local `CRCS`; for the empty input the result is 0x0000. MODEL'S CHOICE of the value
left in `CRCS`: assumption log 8. -/
def Obligations.Crc16ReturnsTheChecksum : Prop :=
  (∀ input : List Byte, decode (.operation ⟨0b01, input, 0⟩) = .ok (.crc16 input)) ∧
  (∀ (input : List Byte) (s : State),
    exec (.crc16 input) s =
      .next { s with crcs := crcRun 0xFFFF input, returned := s.returned ++ [.okChecksum (checksum input)] }) ∧
  ∀ s : State, exec (.crc16 []) s = .next { s with crcs := 0xFFFF, returned := s.returned ++ [.okChecksum 0x0000] }

/-! ### The wire format -/

/-- R33: the escape of one byte. -/
def Obligations.EscapeOfOneByte : Prop :=
  esc 0x7E = [0x7D, 0x5E] ∧ esc 0x7D = [0x7D, 0x5D] ∧ ∀ b : Byte, b ≠ 0x7E → b ≠ 0x7D → esc b = [b]

/-- An escaped sequence has one byte more for each byte escaped, never holds 0x7E, and holds 0x7D only before 0x5E or
0x5D (R34). -/
def Obligations.EscapedSequenceShape : Prop :=
  ∀ s : List Byte, (escSeq s).length = s.length + s.count termByte + s.count escMarker ∧ termByte ∉ escSeq s ∧
    ∀ i : Nat, (escSeq s)[i]? = some escMarker → (escSeq s)[i + 1]? = some 0x5E ∨ (escSeq s)[i + 1]? = some 0x5D

/-- Unescaping an escaped sequence gives the sequence (R38). -/
def Obligations.UnescapeInvertsEscape : Prop :=
  ∀ q : List Byte, unesc (escSeq q) = q

/-- A marker emits nothing and every other byte emits one (R40). -/
def Obligations.UnescapeCountsMarkers : Prop :=
  ∀ s : List Byte, (unesc s).length + s.count escMarker = s.length

/-- The irregular sequences of R39, inside a frame (no byte is a terminator): an unknown pair, a doubled marker, a
dangling marker. And 0x7E directly after a marker is the terminator: `FEED` finds the boundary there and judges the
bytes before the marker. -/
def Obligations.IrregularEscapesAreAccepted : Prop :=
  (∀ (f : List Byte) (b : Byte), termByte ∉ f → b ≠ 0x7D → b ≠ 0x7E →
    unesc (0x7D :: b :: f) = (b ^^^ 0x20) :: unesc f) ∧
  (∀ f : List Byte, termByte ∉ f →
    unesc (0x7D :: 0x7D :: f) = unesc (0x7D :: f) ∧ unesc (f ++ [0x7D]) = unesc f) ∧
  ∀ (chunk f rest : List Byte) (s : State), s.constructed = true → s.buf.wf = true → chunk.length ≤ s.bufCap →
    termByte ∉ f → pendingAfterAppend s.maxPacket s.pend chunk = f ++ 0x7D :: 0x7E :: rest →
    ∃ t, exec (.feed chunk) s = .next t ∧ t.pend = rest ∧ t.returned = s.returned ++ [judge s.maxPacket f]

/-- R35: the two bytes of the trailer, and the u16 that two unescaped bytes stand for; each is escaped on its own. -/
def Obligations.TrailerIsLowThenHigh : Prop :=
  (∀ c : Word, trailer c = [c.extractLsb' 0 8, c.extractLsb' 8 8]) ∧
  (∀ (lo hi : Byte) (c : Word), trailer c = [lo, hi] ↔ joinBytes hi lo = c) ∧
  ∀ p : List Byte, frame p = escSeq p ++ (esc (lo8 (checksum p)) ++ (esc (hi8 (checksum p)) ++ [0x7E]))

/-- The length of a frame, and its bounds (R36). -/
def Obligations.FrameLength : Prop :=
  ∀ p : List Byte,
    (frame p).length =
      p.length + ((p ++ trailer (checksum p)).count termByte + (p ++ trailer (checksum p)).count escMarker) + 3 ∧
    p.length + 3 ≤ (frame p).length ∧ (frame p).length ≤ 2 * (p.length + 2) + 1

/-- A frame holds the terminator once, as its last byte; every 0x7D in it stands before 0x5E or 0x5D; its bytes before
the terminator unescape to payload and trailer (R59). -/
def Obligations.FrameGuarantees : Prop :=
  ∀ p : List Byte,
    (∃ body, frame p = body ++ [termByte] ∧ termByte ∉ body ∧ unesc body = p ++ [lo8 (checksum p), hi8 (checksum p)]) ∧
    ∀ i : Nat, (frame p)[i]? = some escMarker → (frame p)[i + 1]? = some 0x5E ∨ (frame p)[i + 1]? = some 0x5D

/-! ### ENCODE -/

/-- `ENCODE` completes with the frame when it fits: `OUT` holds it from index 0 on, and besides `CRCS` nothing else
changes (R57, R58). MODEL'S CHOICE of the value left in `CRCS`: assumption log 8. -/
def Obligations.EncodeBuildsTheFrame : Prop :=
  ∀ (p : List Byte) (cap : Nat) (s : State), p.length ≤ s.maxPacket → (frame p).length ≤ cap → s.out.wf = true →
    exec (.encode p cap) s =
      .next { s with crcs := crcRun seed p, out := s.out.writeBytes 0 (frame p),
                     returned := s.returned ++ [.okFrame (frame p)] }

/-- R79: `ErrBufferTooSmall` when the frame does not fit, and the frame whenever it does. On the error the block's state
is untouched but for the operation-local `CRCS`, and nothing is said of `OUT` below the capacity. A capacity of
`2 * (n + 2) + 1` always suffices. -/
def Obligations.EncodeBufferTooSmall : Prop :=
  ∀ (p : List Byte) (cap : Nat) (s : State), p.length ≤ s.maxPacket →
    (cap < (frame p).length →
      ∃ c o k, exec (.encode p cap) s =
        .next { s with crcs := c, out := o, freeCtr := k, returned := s.returned ++ [.err .bufferTooSmall] } ∧
        ∀ a, cap ≤ a → o.read a = s.out.read a) ∧
    ((frame p).length ≤ cap → s.out.wf = true →
      ∃ t, exec (.encode p cap) s = .next t ∧ t.returned = s.returned ++ [.okFrame (frame p)]) ∧
    (2 * (p.length + 2) + 1 ≤ cap → s.out.wf = true →
      ∃ t, exec (.encode p cap) s = .next t ∧ t.returned = s.returned ++ [.okFrame (frame p)])

/-- The frame of `ENCODE`, byte by byte (R104): it stores to `OUT[0..w)` on success, to nothing at an index `>= cap`
ever, and never to `BUF`. -/
def Obligations.EncodeFrame : Prop :=
  ∀ (p : List Byte) (cap : Nat) (s t : State), s.out.wf = true → exec (.encode p cap) s = .next t →
    t.buf = s.buf ∧ t.len = s.len ∧ t.escf = s.escf ∧ t.u = s.u ∧ t.maxPacket = s.maxPacket ∧
    t.constructed = s.constructed ∧ t.port = s.port ∧
    (∀ a, cap ≤ a → t.out.read a = s.out.read a) ∧
    ((frame p).length ≤ cap →
      (∀ a (h : a < (frame p).length), t.out.read a = (frame p)[a]) ∧
      ∀ a, (frame p).length ≤ a → t.out.read a = s.out.read a)

/-! ### INIT and reset -/

/-- R61: `INIT`, op 00, completes in every state, drops every pending byte, leaves `BUF` as it is; it has the effect of
reset; twice is once. The bit `constructed` is the model's record that R92 is met (assumption log 13). -/
def Obligations.InitEmptiesTheReassembler : Prop :=
  decode (.operation ⟨0b00, [], 0⟩) = .ok .init ∧
  ∀ s : State, ∃ t, exec .init s = .next t ∧
    t = { s with len := 0, constructed := true, returned := s.returned ++ [.ok] } ∧ t.pend = [] ∧
    t = s.applyReset.respond .ok ∧ exec .init t = .next { t with returned := t.returned ++ [.ok] }

/-- R91: the reset state has nothing pending; reset of an instance sets `LEN` to 0 and does nothing else (it is the
construction, which the model's bit `constructed` records), which is exactly the effect of `INIT`. -/
def Obligations.ResetLeavesNothingPending : Prop :=
  State.reset.len = 0 ∧ State.reset.pend = [] ∧
  ∀ s : State, s.applyReset = { s with len := 0, constructed := true } ∧ s.applyReset.pend = [] ∧
    exec .init s = .next (s.applyReset.respond .ok)

/-! ### FEED -/

/-- R62: a chunk longer than `CAP` is rejected and nothing changes; a chunk of `CAP` bytes or fewer is not. -/
def Obligations.FeedTooMuchData : Prop :=
  ∀ (chunk : List Byte) (s : State), s.constructed = true →
    (s.bufCap < chunk.length →
      exec (.feed chunk) s = .next { s with returned := s.returned ++ [.err .tooMuchData] }) ∧
    (chunk.length ≤ s.bufCap → s.buf.wf = true →
      ∃ t r, exec (.feed chunk) s = .next t ∧ t.returned = s.returned ++ [r] ∧ r ≠ .err .tooMuchData)

/-- R63: when the chunk does not fit beside the pending bytes, they are all discarded, and `FEED` is what it would be
with nothing pending, its result included; when it fits, exactly to the last byte too, nothing is discarded. After the
step the chunk fits, and the empty chunk of a `POLL` discards nothing. -/
def Obligations.FeedDiscardsWhatDoesNotFit : Prop :=
  (∀ (chunk : List Byte) (s : State), chunk.length ≤ s.bufCap →
    (s.bufCap < s.len + chunk.length →
      s.makeRoom chunk.length = { s with len := 0 } ∧
      exec (.feed chunk) s = exec (.feed chunk) { s with len := 0 }) ∧
    (s.len + chunk.length ≤ s.bufCap →
      s.makeRoom chunk.length = s ∧ (s.appended chunk).len = s.len + chunk.length) ∧
    (s.makeRoom chunk.length).len + chunk.length ≤ s.bufCap) ∧
  ∀ s : State, s.len ≤ s.bufCap → s.makeRoom 0 = s

/-- R65: with no terminator among the pending bytes and the chunk, the result is `None` and all bytes are retained.
MODEL'S CHOICE: `BUF` at and above `LEN` holds what the stores left (assumption log 7). -/
def Obligations.FeedWithoutTerminator : Prop :=
  ∀ (chunk : List Byte) (s : State), s.constructed = true → chunk.length ≤ s.bufCap → s.buf.wf = true →
    termByte ∉ pendingAfterAppend s.maxPacket s.pend chunk →
    exec (.feed chunk) s = .next ((s.appended chunk).respond .noFrame) ∧
    (s.appended chunk).pend = pendingAfterAppend s.maxPacket s.pend chunk

/-- R81: the frame unescapes to more than `MAX_PACKET` bytes. It is consumed; no checksum is computed.
MODEL'S CHOICE: the walk's flag and bytes are cleared at the frame's end (assumption log 9), and `BUF` above `LEN` holds
what the stores left (log 7). -/
def Obligations.FeedPacketTooLarge : Prop :=
  ∀ (chunk f rest : List Byte) (s : State), s.completes chunk f rest → s.maxPacket < (unesc f).length →
    ∃ t, exec (.feed chunk) s = .next t ∧ t.pend = rest ∧
      t = { (s.appended chunk).consumed rest with
              escf := false, u := [], returned := s.returned ++ [.err .packetTooLarge] }

/-- R82: the frame unescapes to 0, 1 or 2 bytes. It is consumed; no checksum is computed. MODEL'S CHOICE:
the walk's flag and bytes are cleared at the frame's end (assumption log 9), and `BUF` above `LEN` holds what the stores
left (log 7). -/
def Obligations.FeedPacketTooShort : Prop :=
  ∀ (chunk f rest : List Byte) (s : State), s.completes chunk f rest → 3 ≤ s.maxPacket → (unesc f).length ≤ 2 →
    ∃ t, exec (.feed chunk) s = .next t ∧ t.pend = rest ∧
      t = { (s.appended chunk).consumed rest with
              escf := false, u := [], returned := s.returned ++ [.err .packetTooShort] }

/-- R83: the trailer differs from the recomputed checksum, in either byte or both. The frame is consumed; no payload is
delivered. MODEL'S CHOICE: the walk's flag and bytes are cleared at the frame's end (assumption log 9), `CRCS` keeps its
last value (log 8), and `BUF` above `LEN` holds what the stores left (log 7). -/
def Obligations.FeedChecksumMismatch : Prop :=
  ∀ (chunk f rest p : List Byte) (lo hi : Byte) (s : State), s.completes chunk f rest →
    unesc f = p ++ [lo, hi] → 1 ≤ p.length → p.length + 2 ≤ s.maxPacket →
    (lo ≠ lo8 (checksum p) ∨ hi ≠ hi8 (checksum p)) →
    ∃ t, exec (.feed chunk) s = .next t ∧ t.pend = rest ∧
      t = { (s.appended chunk).consumed rest with
              crcs := crcRun seed p, escf := false, u := [],
              returned := s.returned ++ [.err .checksumMismatch] }

/-- The last case of R70: both trailer bytes match, and the payload is delivered. MODEL'S CHOICE: the walk's flag and
bytes are cleared at the frame's end (assumption log 9), `CRCS` keeps its last value (log 8), and `BUF` above `LEN` holds
what the stores left (log 7). -/
def Obligations.FeedDeliversThePayload : Prop :=
  ∀ (chunk f rest p : List Byte) (s : State), s.completes chunk f rest →
    unesc f = p ++ [lo8 (checksum p), hi8 (checksum p)] → 1 ≤ p.length → p.length + 2 ≤ s.maxPacket →
    ∃ t, exec (.feed chunk) s = .next t ∧ t.pend = rest ∧
      t = { (s.appended chunk).consumed rest with
              crcs := crcRun seed p, escf := false, u := [], returned := s.returned ++ [.okPayload p] }

/-- `FEED` over `BUF` and `LEN` is the pure function of R75 over the pending bytes: it completes, with that function's
result and pending bytes. -/
def Obligations.FeedRefinesThePureFunction : Prop :=
  ∀ (chunk : List Byte) (s : State), s.constructed = true → s.buf.wf = true →
    ∃ t, exec (.feed chunk) s = .next t ∧
      t.pend = (feedPure s.maxPacket s.pend chunk).1 ∧
      t.returned = s.returned ++ [(feedPure s.maxPacket s.pend chunk).2] ∧
      (s.len ≤ s.bufCap → t.len ≤ t.bufCap)

/-- The frame of `FEED` (R28, R104): it stores to `BUF[LEN..LEN+n)` after the capacity check and, when a frame is
consumed, to `BUF[0..r)`; a rejected chunk is stored nowhere; `OUT` is never stored to. The place of the append is `LEN`
after the capacity check (`makeRoom`), and `r` is `LEN` at the end when a terminator was found after the append
(`appended`). That `BUF` above `LEN` is left alone is the MODEL'S CHOICE: assumption log 7. -/
def Obligations.FeedFrame : Prop :=
  ∀ (chunk : List Byte) (s t : State), exec (.feed chunk) s = .next t →
    t.out = s.out ∧ t.freeCtr = s.freeCtr ∧ t.maxPacket = s.maxPacket ∧ t.constructed = s.constructed ∧
    t.port = s.port ∧
    (s.bufCap < chunk.length → ∀ a, t.buf.read a = s.buf.read a) ∧
    (chunk.length ≤ s.bufCap →
      ∀ a, (a < (s.makeRoom chunk.length).len ∨ (s.makeRoom chunk.length).len + chunk.length ≤ a) →
        (termByte ∉ (s.appended chunk).pend ∨ t.len ≤ a) → t.buf.read a = s.buf.read a)

/-- A `POLL` never discards (R45, R63): one that finds no terminator returns `None` and changes nothing, and one that
finds a terminator takes out the first frame with its terminator, returns its verdict, and keeps every byte after it. -/
def Obligations.PollNeverDiscards : Prop :=
  ∀ s : State, s.constructed = true → s.len ≤ s.bufCap →
    (termByte ∉ s.pend → exec poll s = .next (s.respond .noFrame)) ∧
    ∀ f rest : List Byte, s.buf.wf = true → termByte ∉ f → s.pend = f ++ termByte :: rest →
      ∃ t, exec poll s = .next t ∧ t.pend = rest ∧ t.returned = s.returned ++ [judge s.maxPacket f]

/-- Only payloads of 1 to `MAX_PACKET - 2` bytes are ever delivered (R73). -/
def Obligations.DeliveredPayloadLength : Prop :=
  ∀ (chunk p : List Byte) (s t : State), exec (.feed chunk) s = .next t →
    t.returned = s.returned ++ [.okPayload p] → 1 ≤ p.length ∧ p.length + 2 ≤ s.maxPacket

/-- Round trip (R76 a): the frame of a deliverable payload, fed with nothing pending, delivers the payload. -/
def Obligations.RoundTripDeliversThePayload : Prop :=
  ∀ (p : List Byte) (s : State), s.fresh → deliverable s.maxPacket p →
    ∃ t, exec (.feed (frame p)) s = .next t ∧ t.pend = [] ∧ t.returned = s.returned ++ [.okPayload p]

/-- The pseudo-operation `unescape_and_validate` inverts `encode` on the deliverable payloads (R45, R76 a). -/
def Obligations.UnescapeAndValidateInvertsEncode : Prop :=
  ∀ (maxPacket : Nat) (p : List Byte), deliverable maxPacket p →
    unescapeAndValidate maxPacket (frame p) = some (.okPayload p)

/-- Fragmentation invariance (R76 b): the bytes of one frame fed in any pieces, empty ones allowed before the last,
give `None` for every piece but the last, and the payload for the last. -/
def Obligations.FragmentationInvariance : Prop :=
  ∀ (p : List Byte) (pieces : List (List Byte)) (last : List Byte) (s : State), s.fresh → deliverable s.maxPacket p →
    pieces.flatten ++ last = frame p → last ≠ [] →
    ∃ t, execAll ((pieces ++ [last]).map Instr.feed) s = .next t ∧ t.pend = [] ∧
      t.returned = s.returned ++ (List.replicate pieces.length .noFrame ++ [.okPayload p])

/-- Checksum rejection (R76 c): a trailer that differs from the right one in any bits, before escaping, is answered
with the mismatch and no payload. -/
def Obligations.WrongTrailerIsRejected : Prop :=
  ∀ (p : List Byte) (e : Word) (s : State), s.fresh → 1 ≤ p.length → p.length + 2 ≤ s.maxPacket → e ≠ 0 →
    (frameWithTrailer p (checksum p ^^^ e)).length ≤ s.bufCap →
    ∃ t, exec (.feed (frameWithTrailer p (checksum p ^^^ e))) s = .next t ∧ t.pend = [] ∧
      t.returned = s.returned ++ [.err .checksumMismatch]

/-- Recovery (R76 d): a bad frame costs itself and nothing else; the good frame behind it is delivered by the next
`POLL`. -/
def Obligations.GoodFrameAfterABadOneIsDelivered : Prop :=
  ∀ (chunk f p : List Byte) (k : ErrKind) (s : State), s.completes chunk f (frame p) →
    deliverable s.maxPacket p → judge s.maxPacket f = .err k →
    ∃ t, execAll [.feed chunk, poll] s = .next t ∧ t.pend = [] ∧
      t.returned = s.returned ++ [.err k, .okPayload p]

/-- After `ErrTooMuchData` a normal small frame succeeds, unaffected (R76 e). -/
def Obligations.FrameAfterTooMuchDataIsDelivered : Prop :=
  ∀ (chunk p : List Byte) (s : State), s.fresh → s.bufCap < chunk.length → deliverable s.maxPacket p →
    ∃ t, execAll [.feed chunk, .feed (frame p)] s = .next t ∧ t.pend = [] ∧
      t.returned = s.returned ++ [.err .tooMuchData, .okPayload p]

/-- `DRAIN` ends, and surfaces every pending frame or its error, in stream order, each once (R72, R98). -/
def Obligations.DrainSurfacesEveryPendingFrame : Prop :=
  ∀ s : State, s.constructed = true → s.len ≤ s.bufCap → s.buf.wf = true →
    ∃ t, drain s = .next t ∧ t.pend = (splitFrames s.pend).2 ∧ termByte ∉ t.pend ∧
      t.returned = s.returned ++ ((splitFrames s.pend).1.map (judge s.maxPacket) ++ [.noFrame])

/-- A frame longer than the buffer is delivered in no split (R99). -/
def Obligations.FrameLongerThanTheBufferIsNeverDelivered : Prop :=
  ∀ (p : List Byte) (pieces : List (List Byte)) (s : State), s.fresh → p.length + 2 ≤ s.maxPacket →
    s.bufCap < (frame p).length → pieces.flatten = frame p →
    ∃ t rs, execAll (pieces.map Instr.feed) s = .next t ∧ t.returned = s.returned ++ rs ∧ .okPayload p ∉ rs

/-! ### The byte classes -/

/-- `ESCM` completes in every state: it sets the escape flag and emits nothing (R17, R38). MODEL'S CHOICE that the row
executes alone (assumption log 5), on an instance never constructed too (log 26). -/
def Obligations.EscmSetsTheFlag : Prop :=
  ∀ s : State, exec .escm s = .next { s with escf := true }

/-- `LIT` completes for each of its 254 values: it emits the byte, XOR 0x20 under the flag, and clears the flag (R17,
R38). The other two values are no `LIT` (MODEL'S CHOICE to refuse them: assumption log 21). MODEL'S CHOICE that the row
executes alone and keeps its byte in the state (log 5), on an instance never constructed too (log 26). -/
def Obligations.LitEmitsItsByte : Prop :=
  ∀ (b : Byte) (s : State),
    (b ≠ 0x7E → b ≠ 0x7D →
      exec (.lit b) s = .next { s with escf := false, u := s.u ++ [if s.escf then b ^^^ 0x20 else b] }) ∧
    (b = 0x7E ∨ b = 0x7D → exec (.lit b) s = .refused .notALiteral)

/-- `TERM` completes in every state: the frame walked so far is judged, the flag discarded, the next walk starts empty.
MODEL'S CHOICE of the row's effect outside a `FEED` (assumption log 5), on an instance never constructed too (log 26),
and of clearing the walk at its end (log 9). -/
def Obligations.TermJudgesTheWalkedFrame : Prop :=
  ∀ s : State, ∃ c, exec .term s =
    .next { s with crcs := c, escf := false, u := [],
                   returned := s.returned ++ [judgeUnescaped s.maxPacket s.u] }

/-- Walking a frame byte by byte through the rows of the table, then its terminator, gives the frame's verdict (R37,
R38, R75). MODEL'S CHOICE that the rows execute alone (assumption log 5), on an instance never constructed too (log 26),
and that the walk is cleared at its end (log 9). -/
def Obligations.ClassByClassWalkGivesTheVerdict : Prop :=
  ∀ (f : List Byte) (s : State), termByte ∉ f → s.escf = false → s.u = [] →
    ∃ c, execAll ((f ++ [termByte]).map fun b => (classify b).toInstr) s =
      .next { s with crcs := c, escf := false, u := [], returned := s.returned ++ [judge s.maxPacket f] }

/-! ### The whole machine -/

/-- Reset is a legal state. That nothing is listed in `BUF` and `OUT` is the MODEL'S CHOICE: assumption logs 6 and 10. -/
def Obligations.ResetIsALegalState : Prop := State.reset.Inv

/-- From every legal state a step leads to a legal state: `LEN` stays within `CAP` (R15), `MAX_PACKET` stays at least 3
(R6), and the two spaces stay in their canonical form, `BUF` within its indices. The canonical form is the MODEL'S
CHOICE: assumption log 6. -/
def Obligations.EveryStepKeepsTheStateLegal : Prop :=
  ∀ s t : State, s.Inv → step s = .next t → t.Inv

/-- No step faults, from any state: no access is out of range (R21, R104). -/
def Obligations.NoStepFaults : Prop :=
  ∀ (s : State) (f : Fault), step s ≠ .fault f

/-- An instruction is refused in three cases and no other: `ENCODE` beyond its bound (R54), `FEED` on an instance never
constructed (R92), and a `LIT` that R37 does not have (MODEL'S CHOICE to refuse it: assumption log 21). That a byte
class row is not refused on an instance never constructed is the MODEL'S CHOICE: assumption log 26. -/
def Obligations.RefusalsAreTheStatedOnes : Prop :=
  ∀ (i : Instr) (s : State) (r : Refusal), exec i s = .refused r ↔
    (∃ p cap, i = .encode p cap ∧ s.maxPacket < p.length ∧ r = .payloadTooLong) ∨
    (∃ chunk, i = .feed chunk ∧ s.constructed = false ∧ r = .neverConstructed) ∨
    (∃ b, i = .lit b ∧ (b = 0x7E ∨ b = 0x7D) ∧ r = .notALiteral)

/-- After any result, error or not, the block accepts any operation: a host that keeps its duties never sees the block
stop (R87, R103). -/
def Obligations.LawfulRunsNeverStop : Prop :=
  ∀ (is : List Instr) (s : State), s.constructed = true → lawful s.maxPacket is → ∃ t, execAll is s = .next t

/-- R44: every operation returns exactly one result, of the shapes its row lists, under the status codes of the
table; a result is not retained: what an operation does is the same whatever was returned before. -/
def Obligations.EveryOperationReturnsOneResult : Prop :=
  (∀ (i : Instr) (s t : State), i.isOperation = true → exec i s = .next t →
    ∃ r, t.returned = s.returned ++ [r] ∧
      (i = .init → r = .ok) ∧
      (∀ input, i = .crc16 input → ∃ c, r = .okChecksum c) ∧
      (∀ p cap, i = .encode p cap → (∃ f, r = .okFrame f) ∨ r = .err .bufferTooSmall) ∧
      (∀ chunk, i = .feed chunk → (∃ p, r = .okPayload p) ∨ r = .noFrame ∨ r = .err .tooMuchData ∨
        r = .err .packetTooLarge ∨ r = .err .packetTooShort ∨ r = .err .checksumMismatch)) ∧
  (∀ c f p, Result.status .ok = 0 ∧ Result.status (.okChecksum c) = 0 ∧ Result.status (.okFrame f) = 0 ∧
    Result.status (.okPayload p) = 0) ∧
  (∀ (i : Instr) (s t : State) (r : Result), i.isOperation = true → exec i s = .next t →
    t.returned = s.returned ++ [r] →
    ∀ earlier, exec i { s with returned := earlier } = .next { t with returned := earlier ++ [r] }) ∧
  Result.status .noFrame = 1 ∧ Result.status (.err .bufferTooSmall) = 2 ∧
  Result.status (.err .tooMuchData) = 3 ∧ Result.status (.err .packetTooLarge) = 4 ∧
  Result.status (.err .packetTooShort) = 5 ∧ Result.status (.err .checksumMismatch) = 6 ∧
  ∀ r : Result, r.status ≠ 7

/-- What no instruction changes: the parameter of the instance (R18, R93), the entries still to be executed, and the
results already returned; and no instruction makes an instance unconstructed. -/
def Obligations.NoInstructionChangesTheParameter : Prop :=
  ∀ (i : Instr) (s t : State), exec i s = .next t →
    t.maxPacket = s.maxPacket ∧ t.port = s.port ∧ (∃ rs, t.returned = s.returned ++ rs) ∧
    (s.constructed = true → t.constructed = true)

/-- `CRC16` and `ENCODE` neither touch the reassembler's state nor depend on it: on any two instances with the same
`MAX_PACKET` they return the same result (R13, R28, R89). -/
def Obligations.Crc16AndEncodeArePure : Prop :=
  ∀ (i : Instr) (s s' t t' : State), (∃ input, i = .crc16 input) ∨ (∃ p cap, i = .encode p cap) →
    s.maxPacket = s'.maxPacket → s.out.wf = true → s'.out.wf = true → exec i s = .next t → exec i s' = .next t' →
    (∃ r, t.returned = s.returned ++ [r] ∧ t'.returned = s'.returned ++ [r]) ∧
    t.buf = s.buf ∧ t.len = s.len ∧ t.escf = s.escf

/-- Two legal instances that agree on `MAX_PACKET`, on being constructed and on the pending bytes answer every sequence
of operations alike, and end alike: neither `BUF` above `LEN` (R13), nor `CRCS` (R16), nor `ESCF` (R17), nor an earlier
result (R18) is ever seen (R103). -/
def Obligations.OnlyPendingBytesAreRemembered : Prop :=
  ∀ (is : List Instr) (s t : State), (∀ i ∈ is, i.isOperation = true) → s.Inv → t.Inv → s.alike t →
    (∃ s' t' rs, execAll is s = .next s' ∧ execAll is t = .next t' ∧ s'.alike t' ∧
      s'.returned = s.returned ++ rs ∧ t'.returned = t.returned ++ rs) ∨
    ∃ r, execAll is s = .refused r ∧ execAll is t = .refused r
end

