-- ==== Sys2Proof/Laws/State.lean ====
section
/-! SUPPORT. One lemma for each field of State and each update of it, so that no proof unfolds a record update. -/

namespace Sys2Proof.Machine

@[simp] theorem State.setLen_maxPacket (s : State) (n : Nat) : (s.setLen n).maxPacket = s.maxPacket := rfl
@[simp] theorem State.setLen_constructed (s : State) (n : Nat) : (s.setLen n).constructed = s.constructed := rfl
@[simp] theorem State.setLen_buf (s : State) (n : Nat) : (s.setLen n).buf = s.buf := rfl
@[simp] theorem State.setLen_len (s : State) (n : Nat) : (s.setLen n).len = n := rfl
@[simp] theorem State.setLen_crcs (s : State) (n : Nat) : (s.setLen n).crcs = s.crcs := rfl
@[simp] theorem State.setLen_escf (s : State) (n : Nat) : (s.setLen n).escf = s.escf := rfl
@[simp] theorem State.setLen_u (s : State) (n : Nat) : (s.setLen n).u = s.u := rfl
@[simp] theorem State.setLen_out (s : State) (n : Nat) : (s.setLen n).out = s.out := rfl
@[simp] theorem State.setLen_freeCtr (s : State) (n : Nat) : (s.setLen n).freeCtr = s.freeCtr := rfl
@[simp] theorem State.setLen_port (s : State) (n : Nat) : (s.setLen n).port = s.port := rfl
@[simp] theorem State.setLen_returned (s : State) (n : Nat) : (s.setLen n).returned = s.returned := rfl

@[simp] theorem State.respond_maxPacket (s : State) (r : Result) : (s.respond r).maxPacket = s.maxPacket := rfl
@[simp] theorem State.respond_constructed (s : State) (r : Result) : (s.respond r).constructed = s.constructed := rfl
@[simp] theorem State.respond_buf (s : State) (r : Result) : (s.respond r).buf = s.buf := rfl
@[simp] theorem State.respond_len (s : State) (r : Result) : (s.respond r).len = s.len := rfl
@[simp] theorem State.respond_crcs (s : State) (r : Result) : (s.respond r).crcs = s.crcs := rfl
@[simp] theorem State.respond_escf (s : State) (r : Result) : (s.respond r).escf = s.escf := rfl
@[simp] theorem State.respond_u (s : State) (r : Result) : (s.respond r).u = s.u := rfl
@[simp] theorem State.respond_out (s : State) (r : Result) : (s.respond r).out = s.out := rfl
@[simp] theorem State.respond_freeCtr (s : State) (r : Result) : (s.respond r).freeCtr = s.freeCtr := rfl
@[simp] theorem State.respond_port (s : State) (r : Result) : (s.respond r).port = s.port := rfl
@[simp] theorem State.respond_returned (s : State) (r : Result) : (s.respond r).returned = s.returned ++ [r] := rfl

@[simp] theorem State.raiseError_maxPacket (s : State) (k : ErrKind) : (s.raiseError k).maxPacket = s.maxPacket := rfl
@[simp] theorem State.raiseError_constructed (s : State) (k : ErrKind) : (s.raiseError k).constructed = s.constructed := rfl
@[simp] theorem State.raiseError_buf (s : State) (k : ErrKind) : (s.raiseError k).buf = s.buf := rfl
@[simp] theorem State.raiseError_len (s : State) (k : ErrKind) : (s.raiseError k).len = s.len := rfl
@[simp] theorem State.raiseError_crcs (s : State) (k : ErrKind) : (s.raiseError k).crcs = s.crcs := rfl
@[simp] theorem State.raiseError_escf (s : State) (k : ErrKind) : (s.raiseError k).escf = s.escf := rfl
@[simp] theorem State.raiseError_u (s : State) (k : ErrKind) : (s.raiseError k).u = s.u := rfl
@[simp] theorem State.raiseError_out (s : State) (k : ErrKind) : (s.raiseError k).out = s.out := rfl
@[simp] theorem State.raiseError_freeCtr (s : State) (k : ErrKind) : (s.raiseError k).freeCtr = s.freeCtr := rfl
@[simp] theorem State.raiseError_port (s : State) (k : ErrKind) : (s.raiseError k).port = s.port := rfl
@[simp] theorem State.raiseError_returned (s : State) (k : ErrKind) : (s.raiseError k).returned = s.returned ++ [.err k] := rfl

@[simp] theorem State.applyReset_maxPacket (s : State) : s.applyReset.maxPacket = s.maxPacket := rfl
@[simp] theorem State.applyReset_constructed (s : State) : s.applyReset.constructed = true := rfl
@[simp] theorem State.applyReset_buf (s : State) : s.applyReset.buf = s.buf := rfl
@[simp] theorem State.applyReset_len (s : State) : s.applyReset.len = 0 := rfl
@[simp] theorem State.applyReset_crcs (s : State) : s.applyReset.crcs = s.crcs := rfl
@[simp] theorem State.applyReset_escf (s : State) : s.applyReset.escf = s.escf := rfl
@[simp] theorem State.applyReset_u (s : State) : s.applyReset.u = s.u := rfl
@[simp] theorem State.applyReset_out (s : State) : s.applyReset.out = s.out := rfl
@[simp] theorem State.applyReset_freeCtr (s : State) : s.applyReset.freeCtr = s.freeCtr := rfl
@[simp] theorem State.applyReset_port (s : State) : s.applyReset.port = s.port := rfl
@[simp] theorem State.applyReset_returned (s : State) : s.applyReset.returned = s.returned := rfl

@[simp] theorem State.crcStart_maxPacket (s : State) : s.crcStart.maxPacket = s.maxPacket := rfl
@[simp] theorem State.crcStart_constructed (s : State) : s.crcStart.constructed = s.constructed := rfl
@[simp] theorem State.crcStart_buf (s : State) : s.crcStart.buf = s.buf := rfl
@[simp] theorem State.crcStart_len (s : State) : s.crcStart.len = s.len := rfl
@[simp] theorem State.crcStart_crcs (s : State) : s.crcStart.crcs = seed := rfl
@[simp] theorem State.crcStart_escf (s : State) : s.crcStart.escf = s.escf := rfl
@[simp] theorem State.crcStart_u (s : State) : s.crcStart.u = s.u := rfl
@[simp] theorem State.crcStart_out (s : State) : s.crcStart.out = s.out := rfl
@[simp] theorem State.crcStart_freeCtr (s : State) : s.crcStart.freeCtr = s.freeCtr := rfl
@[simp] theorem State.crcStart_port (s : State) : s.crcStart.port = s.port := rfl
@[simp] theorem State.crcStart_returned (s : State) : s.crcStart.returned = s.returned := rfl

@[simp] theorem State.crcByte_maxPacket (s : State) (b : Byte) : (s.crcByte b).maxPacket = s.maxPacket := rfl
@[simp] theorem State.crcByte_constructed (s : State) (b : Byte) : (s.crcByte b).constructed = s.constructed := rfl
@[simp] theorem State.crcByte_buf (s : State) (b : Byte) : (s.crcByte b).buf = s.buf := rfl
@[simp] theorem State.crcByte_len (s : State) (b : Byte) : (s.crcByte b).len = s.len := rfl
@[simp] theorem State.crcByte_crcs (s : State) (b : Byte) : (s.crcByte b).crcs = crcStep s.crcs b := rfl
@[simp] theorem State.crcByte_escf (s : State) (b : Byte) : (s.crcByte b).escf = s.escf := rfl
@[simp] theorem State.crcByte_u (s : State) (b : Byte) : (s.crcByte b).u = s.u := rfl
@[simp] theorem State.crcByte_out (s : State) (b : Byte) : (s.crcByte b).out = s.out := rfl
@[simp] theorem State.crcByte_freeCtr (s : State) (b : Byte) : (s.crcByte b).freeCtr = s.freeCtr := rfl
@[simp] theorem State.crcByte_port (s : State) (b : Byte) : (s.crcByte b).port = s.port := rfl
@[simp] theorem State.crcByte_returned (s : State) (b : Byte) : (s.crcByte b).returned = s.returned := rfl

@[simp] theorem State.walkReset_maxPacket (s : State) : s.walkReset.maxPacket = s.maxPacket := rfl
@[simp] theorem State.walkReset_constructed (s : State) : s.walkReset.constructed = s.constructed := rfl
@[simp] theorem State.walkReset_buf (s : State) : s.walkReset.buf = s.buf := rfl
@[simp] theorem State.walkReset_len (s : State) : s.walkReset.len = s.len := rfl
@[simp] theorem State.walkReset_crcs (s : State) : s.walkReset.crcs = s.crcs := rfl
@[simp] theorem State.walkReset_escf (s : State) : s.walkReset.escf = false := rfl
@[simp] theorem State.walkReset_u (s : State) : s.walkReset.u = [] := rfl
@[simp] theorem State.walkReset_out (s : State) : s.walkReset.out = s.out := rfl
@[simp] theorem State.walkReset_freeCtr (s : State) : s.walkReset.freeCtr = s.freeCtr := rfl
@[simp] theorem State.walkReset_port (s : State) : s.walkReset.port = s.port := rfl
@[simp] theorem State.walkReset_returned (s : State) : s.walkReset.returned = s.returned := rfl

@[simp] theorem State.walkClass_maxPacket (s : State) (c : WireClass) : (s.walkClass c).maxPacket = s.maxPacket := rfl
@[simp] theorem State.walkClass_constructed (s : State) (c : WireClass) : (s.walkClass c).constructed = s.constructed := rfl
@[simp] theorem State.walkClass_buf (s : State) (c : WireClass) : (s.walkClass c).buf = s.buf := rfl
@[simp] theorem State.walkClass_len (s : State) (c : WireClass) : (s.walkClass c).len = s.len := rfl
@[simp] theorem State.walkClass_crcs (s : State) (c : WireClass) : (s.walkClass c).crcs = s.crcs := rfl
@[simp] theorem State.walkClass_escf (s : State) (c : WireClass) : (s.walkClass c).escf = escfAfter s.escf c := rfl
@[simp] theorem State.walkClass_u (s : State) (c : WireClass) : (s.walkClass c).u = s.u ++ emitted s.escf c := rfl
@[simp] theorem State.walkClass_out (s : State) (c : WireClass) : (s.walkClass c).out = s.out := rfl
@[simp] theorem State.walkClass_freeCtr (s : State) (c : WireClass) : (s.walkClass c).freeCtr = s.freeCtr := rfl
@[simp] theorem State.walkClass_port (s : State) (c : WireClass) : (s.walkClass c).port = s.port := rfl
@[simp] theorem State.walkClass_returned (s : State) (c : WireClass) : (s.walkClass c).returned = s.returned := rfl

@[simp] theorem State.scrambleOut_maxPacket (s : State) (cap : Nat) : (s.scrambleOut cap).maxPacket = s.maxPacket := rfl
@[simp] theorem State.scrambleOut_constructed (s : State) (cap : Nat) : (s.scrambleOut cap).constructed = s.constructed := rfl
@[simp] theorem State.scrambleOut_buf (s : State) (cap : Nat) : (s.scrambleOut cap).buf = s.buf := rfl
@[simp] theorem State.scrambleOut_len (s : State) (cap : Nat) : (s.scrambleOut cap).len = s.len := rfl
@[simp] theorem State.scrambleOut_crcs (s : State) (cap : Nat) : (s.scrambleOut cap).crcs = s.crcs := rfl
@[simp] theorem State.scrambleOut_escf (s : State) (cap : Nat) : (s.scrambleOut cap).escf = s.escf := rfl
@[simp] theorem State.scrambleOut_u (s : State) (cap : Nat) : (s.scrambleOut cap).u = s.u := rfl
@[simp] theorem State.scrambleOut_out (s : State) (cap : Nat) : (s.scrambleOut cap).out = s.out.writeBytes 0 (freeBytes s.freeCtr cap) := rfl
@[simp] theorem State.scrambleOut_freeCtr (s : State) (cap : Nat) : (s.scrambleOut cap).freeCtr = s.freeCtr + cap := rfl
@[simp] theorem State.scrambleOut_port (s : State) (cap : Nat) : (s.scrambleOut cap).port = s.port := rfl
@[simp] theorem State.scrambleOut_returned (s : State) (cap : Nat) : (s.scrambleOut cap).returned = s.returned := rfl

end Sys2Proof.Machine
end

