-- ==== Sys2Proof/Laws/Checksum.lean ====
section
/-! SUPPORT. One lemma for a whole checksum computation over the state, and the bytes of a u16. -/

namespace Sys2Proof.Machine

theorem State.foldl_crcByte (bytes : List Byte) (s : State) :
    bytes.foldl State.crcByte s = { s with crcs := crcRun s.crcs bytes } := by
  induction bytes generalizing s with
  | nil => rfl
  | cons b rest ih => rw [List.foldl_cons, ih]; rfl

/-- All that a checksum computation does to the state: `CRCS` holds the run from the seed (R51). -/
theorem State.runChecksum_eq (s : State) (bytes : List Byte) :
    s.runChecksum bytes = { s with crcs := crcRun seed bytes } := by
  rw [State.runChecksum, State.foldl_crcByte]
  rfl

/-- The result of a computation is the checksum function, whatever `CRCS` held before (R16, R50). -/
theorem State.crcResult_runChecksum (s : State) (bytes : List Byte) :
    (s.runChecksum bytes).crcResult = checksum bytes := by
  rw [State.runChecksum_eq]
  rfl

/-- The two bytes of a u16 make it up again, and no other two do (R35). -/
theorem lo8_joinBytes (hi lo : Byte) : lo8 (joinBytes hi lo) = lo := by
  apply BitVec.eq_of_getLsbD_eq
  intro i h
  simp only [lo8, joinBytes, BitVec.getLsbD_extractLsb', BitVec.getLsbD_append, Nat.zero_add]
  simp [h]

theorem hi8_joinBytes (hi lo : Byte) : hi8 (joinBytes hi lo) = hi := by
  apply BitVec.eq_of_getLsbD_eq
  intro i h
  simp only [hi8, joinBytes, BitVec.getLsbD_extractLsb', BitVec.getLsbD_append]
  simp [h]

theorem joinBytes_hi8_lo8 (c : Word) : joinBytes (hi8 c) (lo8 c) = c := by
  apply BitVec.eq_of_getLsbD_eq
  intro i h
  simp only [joinBytes, BitVec.getLsbD_append, lo8, hi8, BitVec.getLsbD_extractLsb']
  split
  · simp [*]
  · simp only [show i - 8 < 8 by omega, decide_true, Bool.true_and]
    congr 1
    omega

end Sys2Proof.Machine
end

