-- ==== Sys2Proof/Laws/Memory.lean ====
section
/-! SUPPORT. The laws of the storage spaces: a read after a write, the canonical form, and byte sequences. -/

namespace Sys2Proof.Machine

/-! ### The canonical form -/

theorem Memory.wfFrom_cons (lo k : Nat) (v : Byte) (m : Memory) :
    Memory.wfFrom lo ((k, v) :: m) = true ↔ lo ≤ k ∧ v ≠ unlistedByte ∧ Memory.wfFrom (k + 1) m = true := by
  simp [Memory.wfFrom, and_assoc]

theorem Memory.wfFrom_mono {m : Memory} {lo lo' : Nat} (h : lo' ≤ lo) (hm : Memory.wfFrom lo m = true) :
    Memory.wfFrom lo' m = true := by
  cases m with
  | nil => rfl
  | cons c rest =>
    obtain ⟨k, v⟩ := c
    rw [Memory.wfFrom_cons] at hm ⊢
    exact ⟨by omega, hm.2⟩

/-- An index below every listed one is not listed. -/
theorem Memory.read_of_lt {m : Memory} {lo a : Nat} (hm : Memory.wfFrom lo m = true) (h : a < lo) :
    m.read a = unlistedByte := by
  induction m generalizing lo with
  | nil => rfl
  | cons c rest ih =>
    obtain ⟨k, v⟩ := c
    rw [Memory.wfFrom_cons] at hm
    simp only [Memory.read]
    rw [if_neg (by omega)]
    exact ih hm.2.2 (by omega)

/-- A write keeps the canonical form. -/
theorem Memory.wfFrom_write {m : Memory} {lo a : Nat} (b : Byte) (hm : Memory.wfFrom lo m = true) (h : lo ≤ a) :
    Memory.wfFrom lo (m.write a b) = true := by
  induction m generalizing lo with
  | nil =>
    simp only [Memory.write]
    split
    · rfl
    · exact (Memory.wfFrom_cons ..).2 ⟨h, by assumption, rfl⟩
  | cons c rest ih =>
    obtain ⟨k, v⟩ := c
    have hc := (Memory.wfFrom_cons ..).1 hm
    simp only [Memory.write]
    split
    · split
      · exact hm
      · exact (Memory.wfFrom_cons ..).2
          ⟨h, by assumption, (Memory.wfFrom_cons ..).2 ⟨by omega, hc.2⟩⟩
    · split
      · split
        · exact Memory.wfFrom_mono (by omega) hc.2.2
        · exact (Memory.wfFrom_cons ..).2 ⟨h, by assumption, by subst a; exact hc.2.2⟩
      · exact (Memory.wfFrom_cons ..).2 ⟨hc.1, hc.2.1, ih hc.2.2 (by omega)⟩

theorem Memory.wf_write {m : Memory} (a : Nat) (b : Byte) (hm : m.wf = true) : (m.write a b).wf = true :=
  Memory.wfFrom_write b hm (Nat.zero_le a)

theorem Memory.wf_writeBytes {m : Memory} (a : Nat) (bs : List Byte) (hm : m.wf = true) :
    (m.writeBytes a bs).wf = true := by
  induction bs generalizing m a with
  | nil => exact hm
  | cons b rest ih => exact ih (a + 1) (Memory.wf_write a b hm)

theorem Memory.below_write {m : Memory} {n a : Nat} (b : Byte) (hm : m.below n = true) (h : a < n) :
    (m.write a b).below n = true := by
  induction m with
  | nil =>
    simp only [Memory.write]
    split
    · rfl
    · simp [Memory.below, h]
  | cons c rest ih =>
    obtain ⟨k, v⟩ := c
    simp only [Memory.below, List.all_cons, Bool.and_eq_true, decide_eq_true_eq] at hm ih ⊢
    simp only [Memory.write]
    split
    · split
      · simp [hm.1, hm.2]
      · simp [h, hm.1, hm.2]
    · split
      · split
        · exact hm.2
        · simp [h, hm.2]
      · simp [hm.1, ih hm.2]

theorem Memory.below_writeBytes {m : Memory} {n : Nat} (a : Nat) (bs : List Byte) (hm : m.below n = true)
    (h : a + bs.length ≤ n) : (m.writeBytes a bs).below n = true := by
  induction bs generalizing m a with
  | nil => exact hm
  | cons b rest ih =>
    simp only [List.length_cons] at h
    exact ih (a + 1) (Memory.below_write b hm (by omega)) (by omega)

/-! ### Reads after writes

They hold of a list of cells with rising indices; `Memory.wf` gives that. -/

theorem Memory.read_write_ne (m : Memory) {a a' : Nat} (b : Byte) (h : a' ≠ a) :
    (m.write a b).read a' = m.read a' := by
  induction m with
  | nil =>
    simp only [Memory.write]
    split
    · rfl
    · simp [Memory.read, h.symm]
  | cons c rest ih =>
    obtain ⟨k, v⟩ := c
    simp only [Memory.write]
    split
    · split
      · rfl
      · simp [Memory.read, h.symm]
    · split
      · subst a
        split <;> simp [Memory.read, h.symm]
      · simp only [Memory.read, ih]

theorem Memory.read_write_self {m : Memory} {lo : Nat} (a : Nat) (b : Byte) (hm : Memory.wfFrom lo m = true) :
    (m.write a b).read a = b := by
  induction m generalizing lo with
  | nil =>
    simp only [Memory.write]
    split
    · subst b; rfl
    · simp [Memory.read]
  | cons c rest ih =>
    obtain ⟨k, v⟩ := c
    have hc := (Memory.wfFrom_cons ..).1 hm
    simp only [Memory.write]
    split
    · split
      · subst b
        simp only [Memory.read]
        rw [if_neg (by omega)]
        exact Memory.read_of_lt hc.2.2 (by omega)
      · simp [Memory.read]
    · split
      · subst a
        split
        · subst b
          exact Memory.read_of_lt hc.2.2 (Nat.lt_succ_self k)
        · simp [Memory.read]
      · rename_i h1 h2
        simp only [Memory.read]
        rw [if_neg (fun e => h2 e.symm)]
        exact ih hc.2.2

/-- A byte outside the written range reads as before. -/
theorem Memory.read_writeBytes_outside (m : Memory) (bs : List Byte) {a a' : Nat}
    (h : a' < a ∨ a + bs.length ≤ a') : (m.writeBytes a bs).read a' = m.read a' := by
  induction bs generalizing m a with
  | nil => rfl
  | cons b rest ih =>
    simp only [List.length_cons] at h
    simp only [Memory.writeBytes]
    rw [ih _ (by omega), Memory.read_write_ne _ _ (by omega)]

/-- A byte inside the written range reads as the one written there. -/
theorem Memory.read_writeBytes_inside {m : Memory} (bs : List Byte) {a i : Nat} (hm : m.wf = true)
    (h : i < bs.length) : (m.writeBytes a bs).read (a + i) = bs[i] := by
  induction bs generalizing m a i with
  | nil => exact absurd h (Nat.not_lt_zero i)
  | cons b rest ih =>
    simp only [Memory.writeBytes]
    cases i with
    | zero =>
      rw [Memory.read_writeBytes_outside _ _ (by omega)]
      exact Memory.read_write_self _ _ hm
    | succ i =>
      have := ih (m := m.write a b) (a := a + 1) (i := i) (Memory.wf_write a b hm) (by simpa using h)
      rw [show a + (i + 1) = a + 1 + i by omega, this]
      rfl

/-! ### Byte sequences -/

@[simp] theorem Memory.readBytes_length (m : Memory) (a n : Nat) : (m.readBytes a n).length = n := by
  induction n generalizing a with
  | zero => rfl
  | succ n ih => simp [Memory.readBytes, ih]

theorem Memory.getElem_readBytes (m : Memory) (a n i : Nat) (h : i < (m.readBytes a n).length) :
    (m.readBytes a n)[i] = m.read (a + i) := by
  induction n generalizing a i with
  | zero => simp [Memory.readBytes] at h
  | succ n ih =>
    cases i with
    | zero => rfl
    | succ i =>
      simp only [Memory.readBytes, List.getElem_cons_succ]
      rw [ih (a + 1) i]
      congr 1
      omega

/-- Two spaces that agree on a range hold the same sequence there. -/
theorem Memory.readBytes_congr {m m' : Memory} {a n : Nat} (h : ∀ i, a ≤ i → i < a + n → m.read i = m'.read i) :
    m.readBytes a n = m'.readBytes a n := by
  induction n generalizing a with
  | zero => rfl
  | succ n ih =>
    simp only [Memory.readBytes]
    rw [h a (by omega) (by omega), ih fun i h1 h2 => h i (by omega) (by omega)]

theorem Memory.readBytes_add (m : Memory) (a n k : Nat) :
    m.readBytes a (n + k) = m.readBytes a n ++ m.readBytes (a + n) k := by
  induction n generalizing a with
  | zero => simp [Memory.readBytes]
  | succ n ih =>
    rw [show n + 1 + k = (n + k) + 1 by omega]
    simp only [Memory.readBytes, List.cons_append]
    rw [ih (a + 1), show a + 1 + n = a + (n + 1) by omega]

/-- The sequence read where it was written. -/
theorem Memory.readBytes_writeBytes {m : Memory} (a : Nat) (bs : List Byte) (hm : m.wf = true) :
    (m.writeBytes a bs).readBytes a bs.length = bs := by
  apply List.ext_getElem
  · simp
  · intro i h1 h2
    rw [Memory.getElem_readBytes, Memory.read_writeBytes_inside bs hm h2]

theorem Memory.writeBytes_append (m : Memory) (a : Nat) (bs cs : List Byte) :
    m.writeBytes a (bs ++ cs) = (m.writeBytes a bs).writeBytes (a + bs.length) cs := by
  induction bs generalizing m a with
  | nil => rfl
  | cons b rest ih =>
    simp only [List.cons_append, Memory.writeBytes, List.length_cons]
    rw [ih, show a + 1 + rest.length = a + (rest.length + 1) by omega]

theorem Memory.take_readBytes (m : Memory) (a n k : Nat) (h : k ≤ n) :
    (m.readBytes a n).take k = m.readBytes a k := by
  obtain ⟨j, rfl⟩ : ∃ j, n = k + j := ⟨n - k, by omega⟩
  rw [Memory.readBytes_add, List.take_left' (by simp)]

theorem Memory.drop_readBytes (m : Memory) (a n k : Nat) (h : k ≤ n) :
    (m.readBytes a n).drop k = m.readBytes (a + k) (n - k) := by
  obtain ⟨j, rfl⟩ : ∃ j, n = k + j := ⟨n - k, by omega⟩
  rw [Memory.readBytes_add, List.drop_left' (by simp)]
  congr 1
  omega

/-- Canonical spaces that read alike are equal. -/
theorem Memory.ext_read {m m' : Memory} {lo : Nat} (hm : Memory.wfFrom lo m = true)
    (hm' : Memory.wfFrom lo m' = true) (h : ∀ a, m.read a = m'.read a) : m = m' := by
  induction m generalizing m' lo with
  | nil =>
    cases m' with
    | nil => rfl
    | cons c rest =>
      obtain ⟨k, v⟩ := c
      have hc := (Memory.wfFrom_cons ..).1 hm'
      have := h k
      simp [Memory.read] at this
      exact absurd this.symm hc.2.1
  | cons c rest ih =>
    obtain ⟨k, v⟩ := c
    have hc := (Memory.wfFrom_cons ..).1 hm
    cases m' with
    | nil =>
      have := h k
      simp [Memory.read] at this
      exact absurd this hc.2.1
    | cons c' rest' =>
      obtain ⟨k', v'⟩ := c'
      have hc' := (Memory.wfFrom_cons ..).1 hm'
      have hk : k = k' := by
        rcases Nat.lt_trichotomy k k' with hlt | heq | hgt
        · have := h k
          simp only [Memory.read, if_true] at this
          rw [if_neg (by omega), Memory.read_of_lt hc'.2.2 (by omega)] at this
          exact absurd this hc.2.1
        · exact heq
        · have := h k'
          simp only [Memory.read, if_true] at this
          rw [if_neg (by omega), Memory.read_of_lt hc.2.2 (by omega)] at this
          exact absurd this.symm hc'.2.1
      subst hk
      have hv : v = v' := by
        have := h k
        simpa [Memory.read] using this
      subst hv
      rw [ih hc.2.2 hc'.2.2 fun a => ?_]
      by_cases ha : k = a
      · subst ha
        rw [Memory.read_of_lt hc.2.2 (by omega), Memory.read_of_lt hc'.2.2 (by omega)]
      · have := h a
        simpa [Memory.read, ha] using this

end Sys2Proof.Machine
end

