-- ==== Sys2Proof/Laws/Wire.lean ====
section
/-! SUPPORT. The byte classes, the escape function and the frame walk: one lemma for the whole walk over the state, and
the facts about escaped sequences. -/

namespace Sys2Proof.Machine

@[simp] theorem classify_term : classify termByte = .term := rfl
@[simp] theorem classify_escm : classify escMarker = .escm := rfl

theorem classify_lit {b : Byte} (h1 : b ≠ termByte) (h2 : b ≠ escMarker) : classify b = .lit b := by
  simp [classify, h1, h2]

/-- The walk over bytes that hold no terminator, from any state: the flag after it and the bytes it emits. -/
theorem State.foldl_walkByte (bytes : List Byte) (h : termByte ∉ bytes) (s : State) :
    (bytes.foldl State.walkByte s).u = s.u ++ unescFrom s.escf bytes := by
  induction bytes generalizing s with
  | nil => simp [unescFrom]
  | cons b rest ih =>
    simp only [List.mem_cons, not_or] at h
    rw [List.foldl_cons, ih h.2]
    by_cases hb : b = escMarker
    · subst hb
      simp [State.walkByte, escfAfter, emitted, unescFrom]
    · simp only [State.walkByte, classify_lit (Ne.symm h.1) hb, State.walkClass_u, State.walkClass_escf, escfAfter,
        emitted, unescFrom, hb, if_false]
      by_cases hf : s.escf <;> simp [hf]

/-- The walk touches only the walk's own state. -/
theorem State.foldl_walkByte_eq (bytes : List Byte) (s : State) :
    bytes.foldl State.walkByte s =
      { s with escf := (bytes.foldl State.walkByte s).escf, u := (bytes.foldl State.walkByte s).u } := by
  induction bytes generalizing s with
  | nil => rfl
  | cons b rest ih => rw [List.foldl_cons, ih]; rfl

/-- All that the walk over the bytes of a frame does: it emits their unescape, and touches only the walk's own state
(R38, R66). -/
theorem State.walk_spec (bytes : List Byte) (h : termByte ∉ bytes) (s : State) :
    ∃ f, s.walk bytes = { s with escf := f, u := unesc bytes } := by
  refine ⟨(s.walk bytes).escf, ?_⟩
  have hu : (s.walk bytes).u = unesc bytes := by
    rw [State.walk, State.foldl_walkByte _ h]
    simp [unesc]
  rw [← hu]
  conv_lhs => rw [State.walk, State.foldl_walkByte_eq]
  rfl

/-! ### Escaped sequences -/

theorem escSeq_append (a b : List Byte) : escSeq (a ++ b) = escSeq a ++ escSeq b := by
  induction a with
  | nil => rfl
  | cons x rest ih => simp [escSeq, ih]

theorem escSeq_pair (a b : Byte) : escSeq [a, b] = esc a ++ esc b := by simp [escSeq]

/-- The frame is the escape of payload and trailer, and the terminator. -/
theorem frame_eq_escSeq (p : List Byte) : frame p = escSeq (p ++ trailer (checksum p)) ++ [termByte] := by
  simp [frame, escSeq_append, trailer, escSeq]

theorem termByte_not_mem_esc (b : Byte) : termByte ∉ esc b := by
  by_cases h : b = termByte ∨ b = escMarker
  · rcases h with h | h <;> subst h <;> decide
  · simp only [esc, h, if_false, List.mem_singleton]
    exact fun e => h (Or.inl e.symm)

/-- An escaped sequence never contains the terminator (R34). -/
theorem termByte_not_mem_escSeq (s : List Byte) : termByte ∉ escSeq s := by
  induction s with
  | nil => simp [escSeq]
  | cons b rest ih => simp [escSeq, termByte_not_mem_esc, ih]

theorem unescFrom_esc (b : Byte) (rest : List Byte) :
    unescFrom false (esc b ++ rest) = b :: unescFrom false rest := by
  by_cases h : b = termByte ∨ b = escMarker
  · rcases h with h | h <;> subst h <;> rfl
  · have h2 : b ≠ escMarker := fun e => h (Or.inr e)
    rw [esc, if_neg h]
    simp [unescFrom, h2]

/-! ### The boundary search -/

theorem firstIndex_eq_none_iff (s : List Byte) (b : Byte) : firstIndex s b = none ↔ b ∉ s := by
  induction s with
  | nil => simp [firstIndex]
  | cons a rest ih =>
    by_cases h : a = b
    · simp [firstIndex, h]
    · simp [firstIndex, h, ih, Ne.symm h]

/-- The first index splits the sequence there (00_scope.md section 6.4). -/
theorem firstIndex_eq_some {s : List Byte} {b : Byte} {t : Nat} (h : firstIndex s b = some t) :
    t < s.length ∧ s = s.take t ++ b :: s.drop (t + 1) ∧ b ∉ s.take t := by
  induction s generalizing t with
  | nil => simp [firstIndex] at h
  | cons a rest ih =>
    by_cases hab : a = b
    · simp only [firstIndex, hab, if_true, Option.some.injEq] at h
      subst h
      simp [hab]
    · simp only [firstIndex, hab, if_false, Option.map_eq_some_iff] at h
      obtain ⟨t', ht', rfl⟩ := h
      obtain ⟨h1, h2, h3⟩ := ih ht'
      refine ⟨by simpa using h1, ?_, ?_⟩
      · simpa using h2
      · simp [Ne.symm hab, h3]

theorem firstIndex_append_of_not_mem {f rest : List Byte} {b : Byte} (h : b ∉ f) :
    firstIndex (f ++ b :: rest) b = some f.length := by
  induction f with
  | nil => simp [firstIndex]
  | cons a f ih =>
    simp only [List.mem_cons, not_or] at h
    simp [firstIndex, Ne.symm h.1, ih h.2]

end Sys2Proof.Machine
end

