-- ==== Sys2Proof/Laws/Ops.lean ====
section
/-! SUPPORT. One lemma for each shared operation that says once everything it can do. -/

namespace Sys2Proof.Machine

/-! ### The steps of feed -/

/-- After the capacity check there is room for the chunk (R63). -/
theorem State.makeRoom_room {s : State} {n : Nat} (h : n ≤ s.bufCap) :
    (s.makeRoom n).len + n ≤ (s.makeRoom n).bufCap := by
  unfold State.makeRoom
  split
  · simpa [State.bufCap] using h
  · omega

/-- What the capacity check does: `LEN` may become 0, nothing else changes (R63). -/
theorem State.makeRoom_eq (s : State) (n : Nat) :
    s.makeRoom n = { s with len := if s.len + n > 2 * s.maxPacket then 0 else s.len } := by
  unfold State.makeRoom State.bufCap
  split <;> rfl

@[simp] theorem State.pend_length (s : State) : s.pend.length = s.len := Memory.readBytes_length ..

theorem State.makeRoom_pend (s : State) (n : Nat) :
    (s.makeRoom n).pend = if s.len + n > 2 * s.maxPacket then [] else s.pend := by
  rw [State.makeRoom_eq]
  split <;> rfl

/-- The append succeeds when there is room (R64). -/
theorem State.append_ok {s : State} {chunk : List Byte} (h : s.len + chunk.length ≤ s.bufCap) :
    s.append chunk =
      .ok { s with buf := s.buf.writeBytes s.len chunk, len := s.len + chunk.length } := by
  simp [State.append, State.bufWrite, h, State.setLen]

/-- The pending bytes after the append (R64). -/
theorem State.pend_append {s : State} (chunk : List Byte) (h : s.buf.wf = true) :
    State.pend { s with buf := s.buf.writeBytes s.len chunk, len := s.len + chunk.length } = s.pend ++ chunk := by
  simp only [State.pend]
  rw [Memory.readBytes_add, Nat.zero_add, Memory.readBytes_writeBytes _ _ h]
  congr 1
  apply Memory.readBytes_congr
  intro i _ hi
  exact Memory.read_writeBytes_outside _ _ (by omega)

/-- The boundary search looks through all pending bytes (R65). -/
theorem State.findTerminator_eq {s : State} (h : s.len ≤ s.bufCap) :
    s.findTerminator = .ok (firstIndex s.pend termByte) := by
  simp [State.findTerminator, State.bufRead, h, State.pend]

/-- The unescape walks the bytes before the terminator (R66). -/
theorem State.unescapeFrame_eq {s : State} {t : Nat} (ht : t ≤ s.len) (h : s.len ≤ s.bufCap) :
    s.unescapeFrame t = .ok (s.walk (s.pend.take t)) := by
  have : 0 + t ≤ s.bufCap := by omega
  simp only [State.unescapeFrame, State.bufRead, if_pos this, State.pend, Memory.take_readBytes _ _ _ _ ht]

/-- The consume moves the bytes after the terminator to the front (R68). -/
theorem State.consume_eq {s : State} {t : Nat} (ht : t < s.len) (h : s.len ≤ s.bufCap) :
    s.consume t =
      .ok { s with buf := s.buf.writeBytes 0 (s.pend.drop (t + 1)), len := s.len - (t + 1) } := by
  have h1 : t + 1 + (s.len - (t + 1)) ≤ s.bufCap := by omega
  have h2 : 0 + (s.len - (t + 1)) ≤ s.bufCap := by omega
  have hd : s.pend.drop (t + 1) = s.buf.readBytes (t + 1) (s.len - (t + 1)) := by
    rw [State.pend, Memory.drop_readBytes _ _ _ _ (by omega), Nat.zero_add]
  rw [hd]
  simp only [State.consume, State.bufRead, if_pos h1, State.bufWrite, Memory.readBytes_length, if_pos h2]
  rfl

/-- The pending bytes after the consume (R68). -/
theorem State.pend_consume {s : State} {bytes : List Byte} (h : s.buf.wf = true) :
    State.pend { s with buf := s.buf.writeBytes 0 bytes, len := bytes.length } = bytes :=
  Memory.readBytes_writeBytes 0 bytes h

/-- The verdict: exactly one result, that of the pure `judge`; besides it only `CRCS` may change (R67, R69, R70). -/
theorem State.verdict_spec (s : State) :
    ∃ c, s.verdict = { s with crcs := c, returned := s.returned ++ [judgeUnescaped s.maxPacket s.u] } := by
  unfold State.verdict judgeUnescaped
  by_cases h1 : s.maxPacket < s.u.length
  · exact ⟨s.crcs, by rw [if_pos h1, if_pos h1]; rfl⟩
  rw [if_neg h1, if_neg h1]
  by_cases h2 : s.u.length ≤ 2
  · exact ⟨s.crcs, by rw [if_pos h2, if_pos h2]; rfl⟩
  rw [if_neg h2, if_neg h2]
  refine ⟨crcRun seed (s.u.take (s.u.length - 2)), ?_⟩
  have hd : s.u.drop (s.u.length - 2) = [s.u.getD (s.u.length - 2) 0, s.u.getD (s.u.length - 1) 0] := by
    apply List.ext_getElem
    · simp; omega
    · intro i hi1 hi2
      simp only [List.length_cons, List.length_nil] at hi2
      have hl : s.u.length - 2 + 1 = s.u.length - 1 := by omega
      rcases Nat.lt_succ_iff_lt_or_eq.1 hi2 with hi | hi
      · have : i = 0 := by omega
        subst this
        simp [List.getD_eq_getElem?_getD, List.getElem?_eq_getElem (show s.u.length - 2 < s.u.length by omega)]
      · have : i = 1 := by omega
        subst this
        simp [List.getD_eq_getElem?_getD, List.getElem?_eq_getElem (show s.u.length - 1 < s.u.length by omega), hl]
  simp only [State.crcResult_runChecksum, hd, trailer, List.cons.injEq, and_true]
  rw [State.runChecksum_eq]
  split
  · rename_i h
    rw [if_neg (by tauto)]
    rfl
  · rename_i h
    rw [if_pos (by tauto)]
    rfl

/-! ### The emission primitive and the encoder -/

/-- A run of emissions that fits: the escaped bytes stand in `OUT` from the write position on (R55, R56). -/
theorem State.emitEscaped_ok {cap : Nat} {bytes : List Byte} {s : State} {w : Nat}
    (h : w + (escSeq bytes).length ≤ cap) :
    s.emitEscaped cap bytes w =
      .ok ({ s with out := s.out.writeBytes w (escSeq bytes) }, w + (escSeq bytes).length) := by
  induction bytes generalizing s w with
  | nil => rfl
  | cons b rest ih =>
    simp only [escSeq, List.length_append] at h
    have h1 : ¬ w + (esc b).length > cap := by omega
    simp only [State.emitEscaped, State.emit, if_neg h1]
    rw [ih (by omega)]
    simp only [escSeq, List.length_append, Memory.writeBytes_append, Nat.add_assoc]

/-- A run of emissions that does not fit raises the error, and only bytes of `OUT` below the capacity may have changed
(R55). -/
theorem State.emitEscaped_error {cap : Nat} {bytes : List Byte} {s : State} {w : Nat} (hw : w ≤ cap)
    (h : cap < w + (escSeq bytes).length) :
    ∃ o, s.emitEscaped cap bytes w = .error { s with out := o } ∧
      (s.out.wf = true → o.wf = true) ∧ ∀ a, cap ≤ a → o.read a = s.out.read a := by
  induction bytes generalizing s w with
  | nil => simp [escSeq] at h; omega
  | cons b rest ih =>
    simp only [escSeq, List.length_append] at h
    by_cases h1 : w + (esc b).length > cap
    · exact ⟨s.out, by simp only [State.emitEscaped, State.emit, if_pos h1], id, fun _ _ => rfl⟩
    · obtain ⟨o, ho, hwf, hr⟩ :=
        ih (s := { s with out := s.out.writeBytes w (esc b) }) (w := w + (esc b).length) (by omega) (by omega)
      refine ⟨o, ?_, fun hs => hwf (Memory.wf_writeBytes _ _ hs), fun a ha => ?_⟩
      · simp only [State.emitEscaped, State.emit, if_neg h1, ho]
      · rw [hr a ha]
        exact Memory.read_writeBytes_outside _ _ (by omega)

theorem frame_length (p : List Byte) :
    (frame p).length = (escSeq p).length + (escSeq (trailer (checksum p))).length + 1 := by
  rw [frame_eq_escSeq, escSeq_append]
  simp [Nat.add_assoc]

/-- The encoder's steps when the frame fits: `OUT` holds the frame from index 0 on (R57, R58). -/
theorem State.encodeSteps_ok {payload : List Byte} {cap : Nat} {s : State} (h : (frame payload).length ≤ cap) :
    s.encodeSteps payload cap =
      .ok ({ s with crcs := crcRun seed payload, out := s.out.writeBytes 0 (frame payload) },
        (frame payload).length) := by
  have hl := frame_length payload
  rw [State.encodeSteps, State.emitEscaped_ok (by omega)]
  simp only [State.crcResult_runChecksum]
  rw [State.emitEscaped_ok (by omega)]
  simp only [State.emit, List.length_singleton]
  rw [if_neg (by omega), State.runChecksum_eq, frame_eq_escSeq, escSeq_append, Memory.writeBytes_append,
    Memory.writeBytes_append]
  simp [Nat.add_assoc]

/-- The encoder's steps when the frame does not fit: the error, and besides `CRCS` only bytes of `OUT` below the
capacity may have changed (R55, R58). -/
theorem State.encodeSteps_error {payload : List Byte} {cap : Nat} {s : State} (h : cap < (frame payload).length) :
    ∃ c o, s.encodeSteps payload cap = .error { s with crcs := c, out := o } ∧
      (s.out.wf = true → o.wf = true) ∧ ∀ a, cap ≤ a → o.read a = s.out.read a := by
  have hl := frame_length payload
  by_cases h1 : 0 + (escSeq payload).length ≤ cap
  · rw [State.encodeSteps, State.emitEscaped_ok h1]
    simp only [State.crcResult_runChecksum]
    simp only [State.runChecksum_eq]
    by_cases h2 : 0 + (escSeq payload).length + (escSeq (trailer (checksum payload))).length ≤ cap
    · rw [State.emitEscaped_ok h2]
      refine ⟨crcRun seed payload, (s.out.writeBytes 0 (escSeq payload)).writeBytes (0 + (escSeq payload).length)
        (escSeq (trailer (checksum payload))), ?_, fun hs => ?_, fun a ha => ?_⟩
      · simp only [State.emit, List.length_singleton]
        rw [if_pos (by omega)]
      · exact Memory.wf_writeBytes _ _ (Memory.wf_writeBytes _ _ hs)
      · rw [Memory.read_writeBytes_outside _ _ (by omega), Memory.read_writeBytes_outside _ _ (by omega)]
    · obtain ⟨o, ho, hwf, hr⟩ :=
        State.emitEscaped_error (cap := cap) (bytes := trailer (checksum payload))
          (s := { s with out := s.out.writeBytes 0 (escSeq payload), crcs := crcRun seed payload })
          h1 (by omega)
      refine ⟨crcRun seed payload, o, ?_, fun hs => hwf (Memory.wf_writeBytes _ _ hs), fun a ha => ?_⟩
      · rw [ho]
      · rw [hr a ha]
        exact Memory.read_writeBytes_outside _ _ (by omega)
  · obtain ⟨o, ho, hwf, hr⟩ :=
      State.emitEscaped_error (cap := cap) (bytes := payload) (s := s) (w := 0) (by omega) (by omega)
    refine ⟨s.crcs, o, ?_, hwf, hr⟩
    rw [State.encodeSteps, ho]

end Sys2Proof.Machine
end

