-- ==== Sys2Proof/Laws/PerInstr.lean ====
section
/-! SUPPORT. Laws of each instruction as syntax, one lemma for each constructor. -/

/-- An instruction is encoded as a request of the host exactly when it is one of the four operations (R3, R41); every
other is encoded as a received byte (R37). -/
def Sys2Proof.Laws.OperationSpace.Statement (i : Sys2Proof.Instr) : Prop :=
  i.isOperation = true ↔ ∃ r, Sys2Proof.encode i = .operation r

theorem Sys2Proof.Laws.OperationSpace.init : Sys2Proof.Laws.OperationSpace.Statement .init :=
  ⟨fun _ => ⟨_, rfl⟩, fun _ => rfl⟩

theorem Sys2Proof.Laws.OperationSpace.crc16 (input : List Sys2Proof.Byte) :
    Sys2Proof.Laws.OperationSpace.Statement (.crc16 input) :=
  ⟨fun _ => ⟨_, rfl⟩, fun _ => rfl⟩

theorem Sys2Proof.Laws.OperationSpace.encode (payload : List Sys2Proof.Byte) (cap : Nat) :
    Sys2Proof.Laws.OperationSpace.Statement (.encode payload cap) :=
  ⟨fun _ => ⟨_, rfl⟩, fun _ => rfl⟩

theorem Sys2Proof.Laws.OperationSpace.feed (chunk : List Sys2Proof.Byte) :
    Sys2Proof.Laws.OperationSpace.Statement (.feed chunk) :=
  ⟨fun _ => ⟨_, rfl⟩, fun _ => rfl⟩

theorem Sys2Proof.Laws.OperationSpace.term : Sys2Proof.Laws.OperationSpace.Statement .term :=
  ⟨fun h => (nomatch h), fun ⟨_, h⟩ => (nomatch h)⟩

theorem Sys2Proof.Laws.OperationSpace.escm : Sys2Proof.Laws.OperationSpace.Statement .escm :=
  ⟨fun h => (nomatch h), fun ⟨_, h⟩ => (nomatch h)⟩

theorem Sys2Proof.Laws.OperationSpace.lit (b : Sys2Proof.Byte) : Sys2Proof.Laws.OperationSpace.Statement (.lit b) :=
  ⟨fun h => (nomatch h), fun ⟨_, h⟩ => (nomatch h)⟩
end

