-- ==== Sys2Proof/Laws/Reassembler.lean ====
section
/-! SUPPORT. One lemma for `FEED` that says once everything it can do when a chunk passes its first step. -/

namespace Sys2Proof.Machine

/-- The appended state, with the base index written out (R63, R64). -/
theorem State.appended_eq (s : State) (chunk : List Byte) :
    s.appended chunk =
      { s with
        buf := s.buf.writeBytes (s.makeRoom chunk.length).len chunk
        len := (s.makeRoom chunk.length).len + chunk.length } := by
  simp only [State.appended, State.makeRoom_eq]

/-- The pending bytes after the append (R63, R64, R75). -/
theorem State.pend_appended {s : State} (chunk : List Byte) (h : s.buf.wf = true) :
    (s.appended chunk).pend = pendingAfterAppend s.maxPacket s.pend chunk := by
  have hw : (s.makeRoom chunk.length).buf.wf = true := by rw [State.makeRoom_eq]; exact h
  rw [State.appended, State.pend_append chunk hw, State.makeRoom_pend, pendingAfterAppend, State.pend_length]

/-- After the append `LEN <= CAP`, from any state (R63). -/
theorem State.appended_len_le {s : State} {chunk : List Byte} (h : chunk.length ≤ s.bufCap) :
    (s.appended chunk).len ≤ (s.appended chunk).bufCap :=
  State.makeRoom_room h

/-- All that `FEED` does once the chunk passed the overflow check: with no terminator the appended state and `None`; with
a first terminator at `t`, the walk before it, the consume, and the end of the frame (R71, R74). -/
theorem execFeed_of_fits {s : State} {chunk : List Byte} (hc : s.constructed = true)
    (hn : chunk.length ≤ s.bufCap) :
    execFeed chunk s =
      match firstIndex (s.appended chunk).pend termByte with
      | none => .next ((s.appended chunk).respond .noFrame)
      | some t =>
        .next ((((s.appended chunk).walk ((s.appended chunk).pend.take t)).consumed
          ((s.appended chunk).pend.drop (t + 1))).endFrame) := by
  have hle := State.appended_len_le hn
  have happ : (s.makeRoom chunk.length).append chunk = .ok (s.appended chunk) :=
    State.append_ok (State.makeRoom_room hn)
  rw [execFeed, if_neg (by simp [hc]), if_neg (by omega), happ]
  simp only [orFault]
  rw [State.findTerminator_eq hle]
  cases hf : firstIndex (s.appended chunk).pend termByte with
  | none => rfl
  | some t =>
    obtain ⟨ht, -, hnot⟩ := firstIndex_eq_some hf
    rw [State.pend_length] at ht
    dsimp only
    rw [State.unescapeFrame_eq (by omega) hle]
    dsimp only
    obtain ⟨f, hw⟩ := State.walk_spec _ hnot (s.appended chunk)
    rw [hw]
    have hcons := State.consume_eq (s := { s.appended chunk with
      escf := f, u := unesc ((s.appended chunk).pend.take t) }) (t := t) ht hle
    rw [hcons]
    simp only [State.consumed, List.length_drop, State.pend_length]
    rfl

end Sys2Proof.Machine
end

