-- ==== Sys2Proof/Tests/Slice0.lean ====
section
/-! SUPPORT. Tests. Expected values come from spec/95_test_vectors.md (the row is named in each comment) and from the
encoding tables of spec/30_encoding.md. After them, one witness for each statement that has hypotheses. -/

namespace Sys2Proof.Tests

open Sys2Proof.Machine

/-! ### Helpers -/

/-- An instance with the given `MAX_PACKET` and pending bytes. -/
def bare (maxPacket : Nat) (pend : List Byte) : State where
  maxPacket := maxPacket
  constructed := true
  buf := Memory.writeBytes [] 0 pend
  len := pend.length
  crcs := 0
  escf := false
  u := []
  out := []
  freeCtr := 0
  port := []
  returned := []

/-- The operation completed with this result and left these bytes pending. -/
def answers (o : Host.Outcome State Fault Refusal) (r : Result) (pend : List Byte) : Bool :=
  match o with
  | .next s => s.returned == [r] && s.pend == pend
  | .fault _ => false
  | .refused _ => false

/-- The outcome is a next state that the check accepts. -/
def nextWith (o : Host.Outcome State Fault Refusal) (check : State → Bool) : Bool :=
  match o with
  | .next s => check s
  | .fault _ => false
  | .refused _ => false

/-- The outcome is this refusal. -/
def refuses (o : Host.Outcome State Fault Refusal) (r : Refusal) : Bool :=
  match o with
  | .next _ => false
  | .fault _ => false
  | .refused r' => decide (r' = r)

/-! ### WellFormed: ill-formed terms are refused -/

/-- R37: 0x7E and 0x7D are no literals, their neighbours are. -/
theorem test_wellFormed_lit : (Instr.lit 0x7E).wellFormed = false ∧ (Instr.lit 0x7D).wellFormed = false ∧
    (Instr.lit 0x7F).wellFormed = true ∧ (Instr.lit 0x7C).wellFormed = true := by decide

/-- R54: the bound of `ENCODE` is `n <= MAX_PACKET`. -/
theorem test_withinBound_encode : (Instr.encode [1, 2, 3, 4] 99).withinBound 3 = false ∧
    (Instr.encode [1, 2, 3] 99).withinBound 3 = true := by decide

/-! ### Decode: words written out from R41 and R37 -/

theorem test_decode_init : decode (.operation ⟨0b00, [], 0⟩) = .ok .init := by decide
theorem test_decode_crc16 : decode (.operation ⟨0b01, [0x41], 0⟩) = .ok (.crc16 [0x41]) := by decide
theorem test_decode_encode : decode (.operation ⟨0b10, [0x41], 9⟩) = .ok (.encode [0x41] 9) := by decide
theorem test_decode_feed : decode (.operation ⟨0b11, [0x41], 0⟩) = .ok (.feed [0x41]) := by decide
theorem test_decode_term : decode (.wire 0b01111110) = .ok .term := by decide
theorem test_decode_escm : decode (.wire 0b01111101) = .ok .escm := by decide
theorem test_decode_lit : decode (.wire 0b01000001) = .ok (.lit 0x41) := by decide

/-- R41: `INIT` has no operand, `CRC16` and `FEED` have no capacity. -/
theorem test_decode_surplus : decode (.operation ⟨0b00, [1], 0⟩) = .error .surplusOperand ∧
    decode (.operation ⟨0b01, [], 1⟩) = .error .surplusOperand ∧
    decode (.operation ⟨0b11, [], 1⟩) = .error .surplusOperand := by decide

/-- The words of spec/opcode_table.json, one for each row, and a word that is too long. -/
theorem test_decodeTableWord : decodeTableWord 8 0 = some .init ∧ decodeTableWord 8 1 = some (.crc16 []) ∧
    decodeTableWord 8 2 = some (.encode [] 0) ∧ decodeTableWord 8 3 = some (.feed []) ∧
    decodeTableWord 8 0x7E = some .term ∧ decodeTableWord 8 0x7D = some .escm ∧
    decodeTableWord 8 0x5E = some (.lit 0x5E) ∧ decodeTableWord 16 0x100 = none := by decide

/-! ### The step from reset, one table word each -/

/-- Each row's word, placed with `withFetchWord`, is run by the first step after reset. -/
theorem test_step_from_reset :
    step (State.reset.withFetchWord 8 0) = .next (State.reset.respond .ok) ∧
    step (State.reset.withFetchWord 8 1) = .next (State.reset.respond (.okChecksum 0x0000)) ∧
    step (State.reset.withFetchWord 8 3) = .next (State.reset.respond .noFrame) ∧
    step (State.reset.withFetchWord 8 0x7D) = .next { State.reset with escf := true } ∧
    step (State.reset.withFetchWord 8 0x41) = .next { State.reset with u := [0x41] } := ⟨rfl, rfl, rfl, rfl, rfl⟩

/-- Row C6: `ENCODE [], 0` fails; nothing is written, since the capacity is 0. -/
theorem test_step_from_reset_encode :
    step (State.reset.withFetchWord 8 2) = .next (State.reset.respond (.err .bufferTooSmall)) := rfl

/-- A terminator with nothing before it is too short (R82, row F4). -/
theorem test_step_from_reset_term :
    step (State.reset.withFetchWord 8 0x7E) = .next (State.reset.respond (.err .packetTooShort)) := rfl

/-- R12: with nothing issued the block is idle. -/
theorem test_step_idle : step State.reset = .next State.reset := rfl

/-! ### INIT and CRC16 -/

/-- R61: pending bytes are dropped. -/
theorem test_init : answers (exec .init (bare 4 [1, 2])) .ok [] = true := by decide

/-- Row K18: ASCII "123456789". -/
theorem test_crc16_check_value : answers (exec (.crc16 [0x31, 0x32, 0x33, 0x34, 0x35, 0x36, 0x37, 0x38, 0x39])
    (bare 4 [1])) (.okChecksum 0x906E) [1] = true := by decide

/-- Rows K1, K4, K13. -/
theorem test_checksum_rows : checksum [] = 0x0000 ∧ checksum [0xFF] = 0xFF00 ∧ checksum [0x1B, 0x00] = 0x7E7E := by
  decide

/-- R47: table spot checks. -/
theorem test_table : tab 0x01 = 0x1189 ∧ tab 0x0C = 0xCA6C ∧ tab 0x80 = 0x8408 ∧ tab 0xFF = 0x0F78 := by decide

/-! ### The wire format -/

/-- Rows E6, E9, E13. -/
theorem test_frame_rows : frame [0x7E, 0x7D] = [0x7D, 0x5E, 0x7D, 0x5D, 0xF1, 0xCD, 0x7E] ∧
    frame [0x1B, 0x00] = [0x1B, 0x00, 0x7D, 0x5E, 0x7D, 0x5E, 0x7E] ∧ frame [0x5E] = [0x5E, 0x83, 0x4B, 0x7E] := by
  decide

/-- Rows U5, U8, U9, U12. -/
theorem test_unesc_rows : unesc [0x7D, 0x41] = [0x61] ∧ unesc [0x7D, 0x7D, 0x7D, 0x01] = [0x21] ∧
    unesc [0x01, 0x7D] = [0x01] ∧ unesc [0x7D, 0x5E, 0x7D, 0x5D, 0x01, 0x7D, 0x20] = [0x7E, 0x7D, 0x01, 0x00] := by
  decide

/-! ### ENCODE -/

/-- Rows C1 and C10: exact fits. -/
theorem test_encode_fits :
    answers (exec (.encode [0x01, 0x02] 5) (bare 4 [9])) (.okFrame [0x01, 0x02, 0x8D, 0x35, 0x7E]) [9] = true ∧
    answers (exec (.encode [0x1B, 0x00] 7) (bare 4 [])) (.okFrame [0x1B, 0x00, 0x7D, 0x5E, 0x7D, 0x5E, 0x7E]) []
      = true := by decide

/-- Rows C2, C9 and C12: the terminator, an escape pair, the second pair of the trailer do not fit. -/
theorem test_encode_too_small :
    (∃ t, exec (.encode [0x01, 0x02] 4) (bare 4 [9]) = .next t ∧ t.returned = [.err .bufferTooSmall]) ∧
    (∃ t, exec (.encode [0x7E] 1) (bare 4 []) = .next t ∧ t.returned = [.err .bufferTooSmall]) ∧
    ∃ t, exec (.encode [0x1B, 0x00] 5) (bare 4 []) = .next t ∧ t.returned = [.err .bufferTooSmall] :=
  ⟨⟨_, rfl, rfl⟩, ⟨_, rfl, rfl⟩, ⟨_, rfl, rfl⟩⟩

/-! ### FEED -/

/-- Rows F3, F7, F10, F12, F16. -/
theorem test_feed_frames :
    answers (exec (.feed [0x35, 0x7E, 0x41]) (bare 8 [0x01, 0x02, 0x8D])) (.okPayload [0x01, 0x02]) [0x41] = true ∧
    answers (exec (.feed [0x7E, 0x7E, 0x01]) (bare 8 [])) (.err .packetTooShort) [0x7E, 0x01] = true ∧
    answers (exec (.feed [0x01, 0x02, 0x03, 0x04, 0x05, 0x06, 0x07, 0x01, 0x6D, 0x7E, 0x99]) (bare 8 []))
      (.err .packetTooLarge) [0x99] = true ∧
    answers (exec (.feed [0x01, 0x02, 0x8C, 0x35, 0x7E]) (bare 8 [])) (.err .checksumMismatch) [] = true ∧
    answers (exec (.feed [0x01, 0xF1, 0xE1, 0x7D, 0x7E]) (bare 8 [])) (.okPayload [0x01]) [] = true := by decide

/-- Rows G2, G4, G5, G8, G10. -/
theorem test_feed_capacity :
    answers (exec (.feed [1, 1, 1, 1, 1, 1, 1, 1, 1]) (bare 4 [0xAA, 0xAA, 0xAA])) (.err .tooMuchData)
      [0xAA, 0xAA, 0xAA] = true ∧
    answers (exec (.feed [0xBB, 0xBB, 0xBB]) (bare 4 [0xAA, 0xAA, 0xAA, 0xAA, 0xAA])) .noFrame
      [0xAA, 0xAA, 0xAA, 0xAA, 0xAA, 0xBB, 0xBB, 0xBB] = true ∧
    answers (exec (.feed [0xCC]) (bare 4 [0xAA, 0xAA, 0xAA, 0xAA, 0xAA, 0xBB, 0xBB, 0xBB])) .noFrame [0xCC] = true ∧
    answers (exec (.feed [0x01, 0x02, 0x8D, 0x35, 0x7E]) (bare 4 [0xAA, 0xAA, 0xAA, 0xAA])) (.okPayload [0x01, 0x02])
      [] = true ∧
    answers (exec (.feed [0x7E]) (bare 4 [0xAA, 0xAA, 0xAA, 0xAA, 0xAA, 0xAA, 0xAA, 0xAA])) (.err .packetTooShort)
      [] = true := by decide

/-! ### The byte classes -/

/-- Row U3's marker, and R38: a marker after a marker keeps the flag. -/
theorem test_escm : nextWith (exec .escm (bare 4 [])) (fun s => s.escf && s.u == []) = true ∧
    nextWith (exec .escm { bare 4 [] with escf := true }) (fun s => s.escf && s.u == []) = true := by decide

/-- Rows U3 and U11: 0x5E after a marker is 0x7E, and itself otherwise. -/
theorem test_lit :
    nextWith (exec (.lit 0x5E) { bare 4 [] with escf := true }) (fun s => !s.escf && s.u == [0x7E]) = true ∧
    nextWith (exec (.lit 0x5E) (bare 4 [])) (fun s => !s.escf && s.u == [0x5E]) = true := by decide

/-- Row F8 judged from the walked bytes. -/
theorem test_term : nextWith (exec .term { bare 8 [] with u := [0x01, 0xF1, 0xE1] })
    (fun s => s.returned == [.okPayload [0x01]] && s.u == []) = true := by decide

/-! ### Witnesses: for each statement with hypotheses, inputs that meet all of them -/

theorem witness_DecodeEncodeRoundTrip : (Instr.lit 0xFF).wellFormed = true := by decide

theorem witness_EncodeDecodeRoundTrip : decode (.operation ⟨0b10, [0x00], 1⟩) = .ok (.encode [0x00] 1) := by decide

theorem witness_ReceivedByteHasItsClass : (0x7F : Byte) ≠ 0x7E ∧ (0x7C : Byte) ≠ 0x7D := by decide

theorem witness_StepRunsTheDecodedInstruction :
    ∃ (s : State) (e : Issue), s.port = e :: [] ∧ decode e = .ok .init :=
  ⟨{ bare 4 [] with port := [.operation ⟨0b00, [], 0⟩] }, _, rfl, by decide⟩

theorem witness_StepRunsTheDecodedInstruction_idle : (bare 4 [1]).port = [] := rfl

/-- Both sides of the equivalence: a refused request, and one that is not. -/
theorem witness_SurplusOperandIsRefused :
    refuses (step { bare 4 [] with port := [.operation ⟨0b00, [], 1⟩] }) (.malformedRequest .surplusOperand) = true ∧
    refuses (step { bare 4 [] with port := [.operation ⟨0b11, [1], 1⟩] }) (.malformedRequest .surplusOperand) = true ∧
    refuses (step { bare 4 [] with port := [.operation ⟨0b11, [1], 0⟩] }) (.malformedRequest .surplusOperand) = false
    := by decide

/-- A list that completes, and one that is refused at its second instruction (R54). -/
theorem witness_IssuedInstructionsRunInOrder : (bare 4 []).port = [] ∧
    (∀ i ∈ [Instr.init, .lit 0x41], i.wellFormed = true) ∧
    (∃ t, execAll [.init, .lit 0x41] (bare 4 []) = .next t) ∧
    (∀ i ∈ [Instr.init, .encode [1, 2, 3, 4, 5] 0, .escm], i.wellFormed = true) ∧
    refuses (execAll [.init, .encode [1, 2, 3, 4, 5] 0, .escm] (bare 4 [])) .payloadTooLong = true :=
  ⟨rfl, by decide, ⟨_, rfl⟩, by decide, by decide⟩

theorem witness_EscapeOfOneByte : (0x5E : Byte) ≠ 0x7E ∧ (0x5E : Byte) ≠ 0x7D := by decide

theorem witness_EscapedSequenceShape : (escSeq [0x01, 0x7D])[1]? = some escMarker := by decide

/-- The neighbours of the two excluded bytes, a tail without a terminator, and 7D 7E in a chunk. -/
theorem witness_IrregularEscapesAreAccepted : termByte ∉ ([0x01, 0x7D] : List Byte) ∧ (0x7F : Byte) ≠ 0x7D ∧
    (0x7F : Byte) ≠ 0x7E ∧ (0x7C : Byte) ≠ 0x7D ∧ (0x7C : Byte) ≠ 0x7E ∧ (bare 4 []).constructed = true ∧
    (bare 4 []).buf.wf = true ∧ [0x01, 0x7D, 0x7E, 0x09].length ≤ (bare 4 []).bufCap ∧
    termByte ∉ ([0x01] : List Byte) ∧
    pendingAfterAppend 4 (bare 4 []).pend [0x01, 0x7D, 0x7E, 0x09] = [0x01] ++ 0x7D :: 0x7E :: [0x09] := by decide

/-- Row E9: the marker before the last byte of the trailer. -/
theorem witness_FrameGuarantees : (frame [0x1B, 0x00])[4]? = some escMarker := by decide

/-- Row C1, the exact fit, on a payload of `MAX_PACKET` bytes. -/
theorem witness_EncodeBuildsTheFrame : [0x01, 0x02, 0x03].length ≤ (bare 3 []).maxPacket ∧
    (frame [0x01, 0x02, 0x03]).length ≤ 6 ∧ (bare 3 []).out.wf = true := by decide

/-- Row C2 for the first clause, row C1 for the second (an exact fit, below the worst case), the worst-case capacity for
the third. -/
theorem witness_EncodeBufferTooSmall : [0x01, 0x02].length ≤ (bare 4 []).maxPacket ∧
    4 < (frame [0x01, 0x02]).length ∧ (frame [0x01, 0x02]).length ≤ 5 ∧ 5 < 2 * ([0x01, 0x02].length + 2) + 1 ∧
    2 * ([0x01, 0x02].length + 2) + 1 ≤ 9 ∧ (bare 4 []).out.wf = true := by decide

theorem witness_EncodeFrame : (bare 4 []).out.wf = true ∧ ∃ t, exec (.encode [0x01, 0x02] 5) (bare 4 []) = .next t :=
  ⟨by decide, _, rfl⟩

/-- Rows G1 and G4: one byte over `CAP`, and exactly `CAP`. -/
theorem witness_FeedTooMuchData : (bare 4 []).constructed = true ∧ (bare 4 []).buf.wf = true ∧
    (bare 4 []).bufCap < [1, 2, 3, 4, 5, 6, 7, 8, 9].length ∧
    [1, 2, 3, 4, 5, 6, 7, 8].length ≤ (bare 4 []).bufCap := by decide

/-- Rows G5 and G4: one byte too many, and an exact fit. -/
theorem witness_FeedDiscardsWhatDoesNotFit : [0xCC].length ≤ (bare 4 [1, 2, 3, 4, 5, 6, 7, 8]).bufCap ∧
    (bare 4 [1, 2, 3, 4, 5, 6, 7, 8]).bufCap < (bare 4 [1, 2, 3, 4, 5, 6, 7, 8]).len + [0xCC].length ∧
    (bare 4 [1, 2, 3, 4, 5, 6, 7]).len + [0xCC].length ≤ (bare 4 [1, 2, 3, 4, 5, 6, 7]).bufCap ∧
    (bare 4 [1, 2, 3, 4, 5, 6, 7, 8]).len ≤ (bare 4 [1, 2, 3, 4, 5, 6, 7, 8]).bufCap := by decide

theorem witness_FeedWithoutTerminator : (bare 8 [0x01]).constructed = true ∧ [0x02].length ≤ (bare 8 [0x01]).bufCap ∧
    (bare 8 [0x01]).buf.wf = true ∧ termByte ∉ pendingAfterAppend 8 (bare 8 [0x01]).pend [0x02] := by decide

/-- Row G11 with a byte behind the frame. -/
theorem witness_FeedPacketTooLarge :
    (bare 4 []).completes [0x01, 0x02, 0x03, 0x3B, 0x9D, 0x7E, 0x99] [0x01, 0x02, 0x03, 0x3B, 0x9D] [0x99] ∧
    (bare 4 []).maxPacket < (unesc [0x01, 0x02, 0x03, 0x3B, 0x9D]).length := by decide

/-- Rows F7 and F5: 0 and 2 unescaped bytes. -/
theorem witness_FeedPacketTooShort :
    (bare 8 []).completes [0x7E, 0x7E, 0x01] [] [0x7E, 0x01] ∧ 3 ≤ (bare 8 []).maxPacket ∧ (unesc []).length ≤ 2 ∧
    (bare 8 []).completes [0x00, 0x00, 0x7E] [0x00, 0x00] [] ∧ (unesc [0x00, 0x00]).length ≤ 2 := by decide

/-- Rows F12 and F13: the low byte wrong, and the high byte wrong. -/
theorem witness_FeedChecksumMismatch :
    (bare 4 []).completes [0x01, 0x02, 0x8C, 0x35, 0x7E] [0x01, 0x02, 0x8C, 0x35] [] ∧
    unesc [0x01, 0x02, 0x8C, 0x35] = [0x01, 0x02] ++ [0x8C, 0x35] ∧ (0x8C : Byte) ≠ lo8 (checksum [0x01, 0x02]) ∧
    (bare 4 []).completes [0x01, 0x02, 0x8D, 0x34, 0x7E] [0x01, 0x02, 0x8D, 0x34] [] ∧
    unesc [0x01, 0x02, 0x8D, 0x34] = [0x01, 0x02] ++ [0x8D, 0x34] ∧ (0x34 : Byte) ≠ hi8 (checksum [0x01, 0x02]) ∧
    1 ≤ [0x01, 0x02].length ∧ [0x01, 0x02].length + 2 ≤ (bare 4 []).maxPacket := by decide

/-- Row F3, on the smallest instance that can take it. -/
theorem witness_FeedDeliversThePayload :
    (bare 4 [0x01, 0x02, 0x8D]).completes [0x35, 0x7E, 0x41] [0x01, 0x02, 0x8D, 0x35] [0x41] ∧
    unesc [0x01, 0x02, 0x8D, 0x35] =
      [0x01, 0x02] ++ [lo8 (checksum [0x01, 0x02]), hi8 (checksum [0x01, 0x02])] ∧
    1 ≤ [0x01, 0x02].length ∧ [0x01, 0x02].length + 2 ≤ (bare 4 []).maxPacket := by decide

theorem witness_FeedRefinesThePureFunction : (bare 4 [1, 2]).constructed = true ∧ (bare 4 [1, 2]).buf.wf = true ∧
    (bare 4 [1, 2]).len ≤ (bare 4 [1, 2]).bufCap := by decide

/-- Row G2 for the clause on a rejected chunk. -/
theorem witness_FeedFrame_rejected : (∃ t, exec (.feed [1, 1, 1, 1, 1, 1, 1, 1, 1]) (bare 4 [0xAA]) = .next t) ∧
    (bare 4 [0xAA]).bufCap < [1, 1, 1, 1, 1, 1, 1, 1, 1].length := ⟨⟨_, rfl⟩, by decide⟩

/-- Row F2 for the clause on an accepted one: an index below the append and one above it. -/
theorem witness_FeedFrame_stored : (∃ t, exec (.feed [0x02]) (bare 4 [0x01]) = .next t) ∧
    [0x02].length ≤ (bare 4 [0x01]).bufCap ∧ 0 < ((bare 4 [0x01]).makeRoom 1).len ∧
    ((bare 4 [0x01]).makeRoom 1).len + 1 ≤ 2 ∧ termByte ∉ ((bare 4 [0x01]).appended [0x02]).pend :=
  ⟨⟨_, rfl⟩, by decide⟩

/-- A consumed frame: one byte is left, and index 3 is beyond the append and beyond the remainder. -/
theorem witness_FeedFrame_consumed :
    (∃ t, exec (.feed [0x7E, 0x41]) (bare 4 [0x01]) = .next t ∧ t.len ≤ 3) ∧
    [0x7E, 0x41].length ≤ (bare 4 [0x01]).bufCap ∧ ((bare 4 [0x01]).makeRoom 2).len + 2 ≤ 3 ∧
    termByte ∈ ((bare 4 [0x01]).appended [0x7E, 0x41]).pend :=
  ⟨⟨_, rfl, by decide⟩, by decide⟩

/-- A frame and bytes after it, for the clause on a terminator that is found. -/
theorem witness_PollNeverDiscards_found : (bare 4 [0x41, 0x7E, 0x7E, 0x01]).constructed = true ∧
    (bare 4 [0x41, 0x7E, 0x7E, 0x01]).len ≤ (bare 4 [0x41, 0x7E, 0x7E, 0x01]).bufCap ∧
    (bare 4 [0x41, 0x7E, 0x7E, 0x01]).buf.wf = true ∧ termByte ∉ ([0x41] : List Byte) ∧
    (bare 4 [0x41, 0x7E, 0x7E, 0x01]).pend = [0x41] ++ termByte :: [0x7E, 0x01] := by decide

/-- Row G9: a full buffer. -/
theorem witness_PollNeverDiscards : (bare 4 [1, 2, 3, 4, 5, 6, 7, 8]).constructed = true ∧
    (bare 4 [1, 2, 3, 4, 5, 6, 7, 8]).len ≤ (bare 4 [1, 2, 3, 4, 5, 6, 7, 8]).bufCap ∧
    termByte ∉ (bare 4 [1, 2, 3, 4, 5, 6, 7, 8]).pend := by decide

/-- Row F8. -/
theorem witness_DeliveredPayloadLength :
    ∃ t, exec (.feed [0x01, 0xF1, 0xE1, 0x7E]) (bare 3 []) = .next t ∧
      t.returned = (bare 3 []).returned ++ [.okPayload [0x01]] := ⟨_, rfl, by decide⟩

/-- Rows E4 and E17: the shortest payload, and one of `MAX_PACKET - 2` bytes. -/
theorem witness_RoundTripDeliversThePayload : (bare 3 []).fresh ∧ deliverable 3 [0x7E] ∧
    deliverable 8 [0x01, 0x02, 0x03, 0x04, 0x05, 0x06] := by decide

theorem witness_UnescapeAndValidateInvertsEncode : deliverable 4 [0x1B, 0x00] := by decide

/-- Two pieces, the escape pair split, the first piece empty. -/
theorem witness_FragmentationInvariance : (bare 4 []).fresh ∧ deliverable 4 [0x7E] ∧
    [[], [0x7D]].flatten ++ [0x5E, 0x81, 0x6A, 0x7E] = frame [0x7E] ∧ ([0x5E, 0x81, 0x6A, 0x7E] : List Byte) ≠ [] := by
  decide

/-- Section 2.7: the highest of the sixteen flips. -/
theorem witness_WrongTrailerIsRejected : (bare 4 []).fresh ∧ 1 ≤ [0x01, 0x02].length ∧
    [0x01, 0x02].length + 2 ≤ (bare 4 []).maxPacket ∧ (0x8000 : Word) ≠ 0 ∧
    (frameWithTrailer [0x01, 0x02] (checksum [0x01, 0x02] ^^^ 0x8000)).length ≤ (bare 4 []).bufCap := by decide

/-- A bare terminator before a good frame. -/
theorem witness_GoodFrameAfterABadOneIsDelivered : (bare 4 []).completes (0x7E :: frame [0x41]) [] (frame [0x41]) ∧
    deliverable 4 [0x41] ∧ judge 4 [] = .err .packetTooShort := by decide

/-- Section 1.4. -/
theorem witness_FrameAfterTooMuchDataIsDelivered : (bare 4 []).fresh ∧
    (bare 4 []).bufCap < [0, 0, 0, 0, 0, 0, 0, 0, 0].length ∧ deliverable 4 [0x01, 0x02] := by decide

theorem witness_DrainSurfacesEveryPendingFrame : (bare 4 [0x7E, 0x41, 0x7E, 0x01]).constructed = true ∧
    (bare 4 [0x7E, 0x41, 0x7E, 0x01]).len ≤ (bare 4 [0x7E, 0x41, 0x7E, 0x01]).bufCap ∧
    (bare 4 [0x7E, 0x41, 0x7E, 0x01]).buf.wf = true := by decide

/-- Row F21's payload. -/
def f21 : List Byte := [0x7E, 0x7E, 0x7E, 0x7D, 0x7D, 0x7E, 0x7E, 0x7E, 0x7D, 0x7E, 0x7E]

set_option maxRecDepth 4000 in
/-- Row F21's frame. -/
theorem test_frame_f21 : frame f21 = [0x7D, 0x5E, 0x7D, 0x5E, 0x7D, 0x5E, 0x7D, 0x5D, 0x7D, 0x5D, 0x7D, 0x5E, 0x7D, 0x5E,
    0x7D, 0x5E, 0x7D, 0x5D, 0x7D, 0x5E, 0x7D, 0x5E, 0x7D, 0x5D, 0x7D, 0x5D, 0x7E] := rfl

/-- Row F21: 27 bytes of frame against a buffer of 26, fed as 26 bytes and then 1. -/
theorem witness_FrameLongerThanTheBufferIsNeverDelivered : (bare 13 []).fresh ∧
    f21.length + 2 ≤ (bare 13 []).maxPacket ∧ (bare 13 []).bufCap < (frame f21).length ∧
    [(frame f21).take 26, (frame f21).drop 26].flatten = frame f21 := by
  rw [test_frame_f21]
  decide

/-- Both clauses of the statement on `LIT`. -/
theorem witness_LitEmitsItsByte : (0x5E : Byte) ≠ 0x7E ∧ (0x5E : Byte) ≠ 0x7D ∧
    refuses (exec (.lit 0x7E) (bare 4 [])) .notALiteral = true ∧
    refuses (exec (.lit 0x7D) (bare 4 [])) .notALiteral = true := by decide

theorem witness_ClassByClassWalkGivesTheVerdict : termByte ∉ ([0x7D, 0x5E, 0x81, 0x6A] : List Byte) ∧
    (bare 4 []).escf = false ∧ (bare 4 []).u = [] := by decide

/-- A legal state with a full buffer, and a step from it. -/
theorem witness_EveryStepKeepsTheStateLegal :
    ({ bare 4 [1, 2, 3, 4, 5, 6, 7, 8] with port := [.operation ⟨0b11, [0xCC], 0⟩] } : State).Inv ∧
    ∃ t, step { bare 4 [1, 2, 3, 4, 5, 6, 7, 8] with port := [.operation ⟨0b11, [0xCC], 0⟩] } = .next t :=
  ⟨by decide, _, rfl⟩

/-- Each of the three refusals happens. -/
theorem witness_RefusalsAreTheStatedOnes :
    refuses (exec (.encode [1, 2, 3, 4, 5] 99) (bare 4 [])) .payloadTooLong = true ∧
    refuses (exec (.feed [1]) { bare 4 [] with constructed := false }) .neverConstructed = true ∧
    refuses (exec (.lit 0x7D) (bare 4 [])) .notALiteral = true := by decide

/-- A payload of exactly `MAX_PACKET` bytes is within the duties (R95). -/
theorem witness_LawfulRunsNeverStop : (bare 4 []).constructed = true ∧
    lawful 4 [.init, .crc16 [1, 2, 3, 4, 5], .encode [1, 2, 3, 4] 0, .feed [0x7E], .term, .escm, .lit 0x41] := by decide

/-- Each operation completes, `ENCODE` in both ways. -/
theorem witness_EveryOperationReturnsOneResult : (Instr.init).isOperation = true ∧ (Instr.feed []).isOperation = true ∧
    (∃ t, exec .init (bare 4 []) = .next t) ∧ (∃ t, exec (.crc16 [1]) (bare 4 []) = .next t) ∧
    (∃ t, exec (.encode [1] 0) (bare 4 []) = .next t) ∧ (∃ t, exec (.encode [1] 9) (bare 4 []) = .next t) ∧
    ∃ t, exec (.feed [0x7E]) (bare 4 []) = .next t ∧
      t.returned = (bare 4 []).returned ++ [.err .packetTooShort] :=
  ⟨rfl, rfl, ⟨_, rfl⟩, ⟨_, rfl⟩, ⟨_, rfl⟩, ⟨_, rfl⟩, ⟨_, rfl, rfl⟩⟩

theorem witness_NoInstructionChangesTheParameter : (bare 4 [1]).constructed = true ∧
    ∃ t, exec (.feed [0x7E]) (bare 4 [1]) = .next t := ⟨rfl, _, rfl⟩

/-- Two instances with different pending bytes, and an `ENCODE` of each outcome. -/
theorem witness_Crc16AndEncodeArePure : (bare 4 [1]).maxPacket = (bare 4 [2, 3]).maxPacket ∧
    (bare 4 [1]).out.wf = true ∧ (bare 4 [2, 3]).out.wf = true ∧
    (∃ t t', exec (.encode [1] 9) (bare 4 [1]) = .next t ∧ exec (.encode [1] 9) (bare 4 [2, 3]) = .next t') ∧
    ∃ t t', exec (.encode [1] 1) (bare 4 [1]) = .next t ∧ exec (.encode [1] 1) (bare 4 [2, 3]) = .next t' :=
  ⟨rfl, rfl, rfl, ⟨_, _, rfl, rfl⟩, ⟨_, _, rfl, rfl⟩⟩

/-- Two legal instances alike but for what no operation can see: a byte of `BUF` above `LEN`, `CRCS`, `ESCF`, an
earlier result. -/
theorem witness_OnlyPendingBytesAreRemembered :
    (∀ i ∈ [Instr.feed [0x7E], poll, .init], i.isOperation = true) ∧ (bare 4 [1]).Inv ∧
    ({ bare 4 [1] with buf := [(0, 1), (5, 9)], crcs := 7, escf := true, returned := [.ok] } : State).Inv ∧
    (bare 4 [1]).alike { bare 4 [1] with buf := [(0, 1), (5, 9)], crcs := 7, escf := true, returned := [.ok] } := by
  decide

end Sys2Proof.Tests
end

/-! ## Proofs: the operation words and the escape of one byte (R33, R41, R43) -/

section
namespace Sys2Proof.Machine

/-- The four operation words of R41 are all the values that two bits have (R43). -/
theorem operationWord_cases (op : BitVec 2) : op = opInit ∨ op = opCrc16 ∨ op = opEncode ∨ op = opFeed := by
  revert op
  decide

/-- The request that the table of R41 gives for an operation decodes to that operation, with its own operands. -/
theorem decode_encode_of_isOperation {i : Instr} (h : i.isOperation = true) : decode (encode i) = .ok i := by
  cases i with
  | init => rfl
  | crc16 input => rfl
  | encode payload cap => rfl
  | feed chunk => rfl
  | term => cases h
  | escm => cases h
  | lit b => cases h

/-- Settles O3: each of the four words is that of an operation, whose request decodes to it. -/
theorem everyOperationWordIsDefined : Obligations.EveryOperationWordIsDefined := by
  unfold Obligations.EveryOperationWordIsDefined
  have hinit := decode_encode_of_isOperation (i := .init) rfl
  have hcrc input := decode_encode_of_isOperation (i := .crc16 input) rfl
  have hencode payload cap := decode_encode_of_isOperation (i := .encode payload cap) rfl
  have hfeed chunk := decode_encode_of_isOperation (i := .feed chunk) rfl
  refine ⟨fun op => ?_, hinit, hcrc, hencode, hfeed⟩
  rcases operationWord_cases op with rfl | rfl | rfl | rfl
  · exact ⟨.init, hinit, rfl⟩
  · exact ⟨.crc16 [], hcrc [], rfl⟩
  · exact ⟨.encode [] 0, hencode [] 0, rfl⟩
  · exact ⟨.feed [], hfeed [], rfl⟩

/-- A terminator or a marker is sent as the escape pair (R33). -/
theorem esc_of_special {b : Byte} (h : b = termByte ∨ b = escMarker) : esc b = [escMarker, b ^^^ escMask] :=
  if_pos h

/-- Every other byte is sent as it is (R33). -/
theorem esc_of_literal {b : Byte} (h1 : b ≠ termByte) (h2 : b ≠ escMarker) : esc b = [b] :=
  if_neg (not_or.2 ⟨h1, h2⟩)

/-- Settles O15: the escape pair with the XOR worked out for the two escaped values, and the byte itself for others. -/
theorem escapeOfOneByte : Obligations.EscapeOfOneByte := by
  unfold Obligations.EscapeOfOneByte
  exact ⟨esc_of_special (.inl rfl), esc_of_special (.inr rfl), fun _ => esc_of_literal⟩

end Sys2Proof.Machine
end

/-! ## Proofs: what the operations do, as equations (R57, R67 to R71) -/

section
namespace Sys2Proof.Machine

/-- What `CRCS` holds after the verdict on `u`: a computation over the payload, if the verdict came to it (R84). -/
def verdictCrcs (maxPacket : Nat) (u : List Byte) (c : Word) : Word :=
  if maxPacket < u.length ∨ u.length ≤ 2 then c else crcRun seed (u.take (u.length - 2))

theorem State.verdict_crcs (s : State) : s.verdict.crcs = verdictCrcs s.maxPacket s.u s.crcs := by
  unfold State.verdict verdictCrcs
  by_cases hlarge : s.maxPacket < s.u.length
  · simp [hlarge]
  by_cases hshort : s.u.length ≤ 2
  · simp [hlarge, hshort]
  · simp only [hlarge, hshort, or_self, if_false, State.runChecksum_eq]
    split <;> rfl

/-- All that the verdict does, with the value left in `CRCS` (R67, R69, R70). -/
theorem State.verdict_eq (s : State) :
    s.verdict =
      { s with
        crcs := verdictCrcs s.maxPacket s.u s.crcs
        returned := s.returned ++ [judgeUnescaped s.maxPacket s.u] } := by
  obtain ⟨c, h⟩ := State.verdict_spec s
  have hc := State.verdict_crcs s
  rw [h] at hc ⊢
  rw [← hc]

/-- All that the end of a frame does: the verdict on the bytes walked, and the walk is over. -/
theorem State.endFrame_eq (s : State) :
    s.endFrame =
      { s with
        crcs := verdictCrcs s.maxPacket s.u s.crcs
        escf := false
        u := []
        returned := s.returned ++ [judgeUnescaped s.maxPacket s.u] } := by
  rw [State.endFrame, State.verdict_eq]
  rfl

/-- A payload above the bound is refused (R54). -/
theorem execEncode_of_tooLong {payload : List Byte} {cap : Nat} {s : State} (h : s.maxPacket < payload.length) :
    execEncode payload cap s = .refused .payloadTooLong :=
  if_pos h

/-- A failed emission gives the error, and any bytes in `OUT` below the capacity (R57, R60). -/
theorem execEncode_of_error {payload : List Byte} {cap : Nat} {s s' : State} (hn : payload.length ≤ s.maxPacket)
    (h : s.encodeSteps payload cap = .error s') :
    execEncode payload cap s = .next ((s'.scrambleOut cap).raiseError .bufferTooSmall) := by
  rw [execEncode, if_neg (Nat.not_lt.2 hn), h]

/-- With every byte emitted, the bytes written are the result (R57). -/
theorem execEncode_of_ok {payload : List Byte} {cap : Nat} {s s' : State} {w : Nat}
    (hn : payload.length ≤ s.maxPacket) (h : s.encodeSteps payload cap = .ok (s', w)) :
    execEncode payload cap s = .next (s'.respond (.okFrame (s'.out.readBytes 0 w))) := by
  rw [execEncode, if_neg (Nat.not_lt.2 hn), h]

/-- `FEED` before construction is refused (R92). -/
theorem execFeed_of_unconstructed {chunk : List Byte} {s : State} (h : s.constructed = false) :
    execFeed chunk s = .refused .neverConstructed :=
  if_pos h

/-- A chunk above `CAP` adds the error and nothing else (R62). -/
theorem execFeed_of_overflow {s : State} {chunk : List Byte} (hc : s.constructed = true)
    (hn : s.bufCap < chunk.length) : execFeed chunk s = .next (s.raiseError .tooMuchData) := by
  rw [execFeed, if_neg (by simp [hc]), if_pos hn]

/-- `FEED` with no terminator pending after the append (R65). -/
theorem execFeed_of_noFrame {s : State} {chunk : List Byte} (hc : s.constructed = true)
    (hn : chunk.length ≤ s.bufCap) (hf : firstIndex (s.appended chunk).pend termByte = none) :
    execFeed chunk s = .next ((s.appended chunk).respond .noFrame) := by
  rw [execFeed_of_fits hc hn, hf]

/-- The frame `f` is judged, `rest` stays pending, and nothing of the walk remains (R66 to R70). -/
def State.judged (s : State) (f rest : List Byte) : State :=
  { s.consumed rest with
    crcs := verdictCrcs s.maxPacket (unesc f) s.crcs
    escf := false
    u := []
    returned := s.returned ++ [judge s.maxPacket f] }

/-- `FEED` with a first terminator at `t` after the append: the bytes around it are the frame and the rest. -/
theorem execFeed_of_frame {s : State} {chunk : List Byte} {t : Nat} (hc : s.constructed = true)
    (hn : chunk.length ≤ s.bufCap) (hf : firstIndex (s.appended chunk).pend termByte = some t) :
    execFeed chunk s =
      .next ((s.appended chunk).judged ((s.appended chunk).pend.take t) ((s.appended chunk).pend.drop (t + 1))) := by
  obtain ⟨-, -, hnot⟩ := firstIndex_eq_some hf
  obtain ⟨f, hwalk⟩ := State.walk_spec _ hnot (s.appended chunk)
  rw [execFeed_of_fits hc hn, hf]
  dsimp only
  rw [hwalk, State.endFrame_eq]
  rfl

/-- The results that the verdict on a frame can have (R44, R84). -/
theorem judge_cases (maxPacket : Nat) (f : List Byte) :
    (∃ p, judge maxPacket f = .okPayload p) ∨ judge maxPacket f = .err .packetTooLarge ∨
      judge maxPacket f = .err .packetTooShort ∨ judge maxPacket f = .err .checksumMismatch := by
  unfold judge judgeUnescaped
  split
  · exact .inr (.inl rfl)
  · split
    · exact .inr (.inr (.inl rfl))
    · dsimp only
      split
      · exact .inl ⟨_, rfl⟩
      · exact .inr (.inr (.inr rfl))

end Sys2Proof.Machine
end

/-! ## Proofs: one result for each operation, and none retained (R44) -/

section
namespace Sys2Proof.Machine

/-- The same state but for the results returned before. -/
def State.withReturned (s : State) (rs : List Result) : State := { s with returned := rs }

/-- A run of emissions, ended or failed, with other results returned before. -/
def emissionWithReturned (rs : List Result) : Except State (State × Nat) → Except State (State × Nat)
  | .error s => .error (s.withReturned rs)
  | .ok (s, w) => .ok (s.withReturned rs, w)

theorem State.runChecksum_withReturned (s : State) (rs : List Result) (bytes : List Byte) :
    (s.withReturned rs).runChecksum bytes = (s.runChecksum bytes).withReturned rs := by
  rw [State.runChecksum_eq, State.runChecksum_eq]
  rfl

theorem State.crcResult_withReturned (s : State) (rs : List Result) : (s.withReturned rs).crcResult = s.crcResult :=
  rfl

theorem State.emit_withReturned (s : State) (rs : List Result) (cap : Nat) (seq : List Byte) (w : Nat) :
    (s.withReturned rs).emit cap seq w = emissionWithReturned rs (s.emit cap seq w) := by
  unfold State.emit
  split <;> rfl

theorem State.emitEscaped_withReturned (s : State) (rs : List Result) (cap : Nat) (bytes : List Byte) (w : Nat) :
    (s.withReturned rs).emitEscaped cap bytes w = emissionWithReturned rs (s.emitEscaped cap bytes w) := by
  induction bytes generalizing s w with
  | nil => rfl
  | cons b rest ih =>
    rw [State.emitEscaped, State.emitEscaped, State.emit_withReturned]
    cases s.emit cap (esc b) w with
    | error s' => rfl
    | ok r => exact ih r.1 r.2

theorem State.encodeSteps_withReturned (s : State) (rs : List Result) (payload : List Byte) (cap : Nat) :
    (s.withReturned rs).encodeSteps payload cap = emissionWithReturned rs (s.encodeSteps payload cap) := by
  rw [State.encodeSteps, State.encodeSteps, State.emitEscaped_withReturned]
  cases s.emitEscaped cap payload 0 with
  | error s1 => rfl
  | ok r =>
    obtain ⟨s1, w1⟩ := r
    simp only [emissionWithReturned, State.runChecksum_withReturned, State.emitEscaped_withReturned,
      State.crcResult_withReturned]
    cases (s1.runChecksum payload).emitEscaped cap (trailer (s1.runChecksum payload).crcResult) w1 with
    | error s3 => rfl
    | ok r3 => exact State.emit_withReturned r3.1 rs cap [termByte] r3.2

/-- The results that the table of R44 lists for each operation; none for a byte class, which is no operation. -/
def MayReturn : Instr → Result → Prop
  | .init, r => r = .ok
  | .crc16 _, r => ∃ c, r = .okChecksum c
  | .encode _ _, r => (∃ f, r = .okFrame f) ∨ r = .err .bufferTooSmall
  | .feed _, r => (∃ p, r = .okPayload p) ∨ r = .noFrame ∨ r = .err .tooMuchData ∨
      r = .err .packetTooLarge ∨ r = .err .packetTooShort ∨ r = .err .checksumMismatch
  | .term, _ => False
  | .escm, _ => False
  | .lit _, _ => False

/-- On this state the operation completes and adds one result of its own shapes, and does the same whatever results were
returned before (R44). -/
def AddsOneResult (i : Instr) (s : State) : Prop :=
  ∃ (t : State) (r : Result), MayReturn i r ∧ ∀ rs, exec i (s.withReturned rs) = .next (t.withReturned (rs ++ [r]))

theorem addsOneResult_init (s : State) : AddsOneResult .init s :=
  ⟨s.applyReset, .ok, rfl, fun _ => rfl⟩

theorem addsOneResult_crc16 (input : List Byte) (s : State) : AddsOneResult (.crc16 input) s := by
  refine ⟨s.runChecksum input, .okChecksum (s.runChecksum input).crcResult, ⟨_, rfl⟩, fun rs => ?_⟩
  change execCrc16 input (s.withReturned rs) = _
  rw [execCrc16, State.runChecksum_withReturned]
  rfl

theorem addsOneResult_encode {payload : List Byte} {cap : Nat} {s : State} (h : payload.length ≤ s.maxPacket) :
    AddsOneResult (.encode payload cap) s := by
  have hsteps rs := State.encodeSteps_withReturned s rs payload cap
  cases he : s.encodeSteps payload cap with
  | error s' =>
    rw [he] at hsteps
    exact ⟨s'.scrambleOut cap, .err .bufferTooSmall, .inr rfl,
      fun rs => execEncode_of_error (s := s.withReturned rs) h (hsteps rs)⟩
  | ok r =>
    obtain ⟨s', w⟩ := r
    rw [he] at hsteps
    exact ⟨s', _, .inl ⟨s'.out.readBytes 0 w, rfl⟩,
      fun rs => execEncode_of_ok (s := s.withReturned rs) h (hsteps rs)⟩

/-- Every verdict on a frame is among the results of `FEED`. -/
theorem mayReturn_feed_judge (chunk : List Byte) (maxPacket : Nat) (f : List Byte) :
    MayReturn (.feed chunk) (judge maxPacket f) :=
  (judge_cases maxPacket f).imp_right fun h => .inr (.inr h)

theorem State.appended_withReturned (s : State) (rs : List Result) (chunk : List Byte) :
    (s.withReturned rs).appended chunk = (s.appended chunk).withReturned rs := by
  rw [State.appended_eq, State.appended_eq, State.makeRoom_eq, State.makeRoom_eq]
  rfl

theorem State.pend_withReturned (s : State) (rs : List Result) : (s.withReturned rs).pend = s.pend := rfl

theorem State.judged_withReturned (s : State) (rs : List Result) (f rest : List Byte) :
    (s.withReturned rs).judged f rest = (s.judged f rest).withReturned (rs ++ [judge s.maxPacket f]) := rfl

theorem addsOneResult_feed (chunk : List Byte) {s : State} (hc : s.constructed = true) :
    AddsOneResult (.feed chunk) s := by
  rcases Nat.lt_or_ge s.bufCap chunk.length with hn | hn
  · exact ⟨s, .err .tooMuchData, .inr (.inr (.inl rfl)),
      fun rs => execFeed_of_overflow (s := s.withReturned rs) hc hn⟩
  have hpend rs : ((s.withReturned rs).appended chunk).pend = (s.appended chunk).pend := by
    rw [State.appended_withReturned, State.pend_withReturned]
  cases hf : firstIndex (s.appended chunk).pend termByte with
  | none =>
    have hexec rs := execFeed_of_noFrame (s := s.withReturned rs) hc hn (by rw [hpend, hf])
    simp only [State.appended_withReturned] at hexec
    exact ⟨s.appended chunk, .noFrame, .inr (.inl rfl), hexec⟩
  | some t =>
    have hexec rs := execFeed_of_frame (s := s.withReturned rs) hc hn (by rw [hpend, hf])
    simp only [State.appended_withReturned, State.pend_withReturned, State.judged_withReturned] at hexec
    exact ⟨_, _, mayReturn_feed_judge chunk _ _, hexec⟩

/-- An operation that completes adds one result of its own shapes: only the refusals of R54 and R92 stand against it. -/
theorem addsOneResult_of_next {i : Instr} {s t : State} (hi : i.isOperation = true) (h : exec i s = .next t) :
    AddsOneResult i s := by
  cases i with
  | init => exact addsOneResult_init s
  | crc16 input => exact addsOneResult_crc16 input s
  | encode payload cap =>
    refine addsOneResult_encode (Nat.not_lt.1 fun hlong => ?_)
    cases h.symm.trans (execEncode_of_tooLong hlong)
  | feed chunk =>
    refine addsOneResult_feed chunk (Bool.of_not_eq_false fun hc => ?_)
    cases h.symm.trans (execFeed_of_unconstructed hc)
  | term => cases hi
  | escm => cases hi
  | lit b => cases hi

/-- The one result of an operation that completes, and the same step whatever was returned before. -/
theorem exec_withReturned {i : Instr} {s t : State} (hi : i.isOperation = true) (h : exec i s = .next t) :
    ∃ r, MayReturn i r ∧ t.returned = s.returned ++ [r] ∧
      ∀ rs, exec i (s.withReturned rs) = .next (t.withReturned (rs ++ [r])) := by
  obtain ⟨t', r, hr, hexec⟩ := addsOneResult_of_next hi h
  have ht : t = t'.withReturned (s.returned ++ [r]) := Host.Outcome.next.inj (h.symm.trans (hexec s.returned))
  subst ht
  exact ⟨r, hr, rfl, hexec⟩

/-- Code 7 is the one that no result has (R44). -/
theorem Result.status_ne_seven (r : Result) : r.status ≠ 7 := by
  have hok : (0 : BitVec 3) ≠ 7 := by decide
  cases r with
  | ok => exact hok
  | okChecksum c => exact hok
  | okFrame f => exact hok
  | okPayload p => exact hok
  | noFrame => decide
  | err k => cases k <;> decide

/-- Settles O56: each operation that completes adds one result of its own shapes, and does the same whatever results
stand before it; the codes are the definition's. -/
theorem everyOperationReturnsOneResult : Obligations.EveryOperationReturnsOneResult := by
  unfold Obligations.EveryOperationReturnsOneResult
  refine ⟨fun i s t hi h => ?_, fun _ _ _ => ⟨rfl, rfl, rfl, rfl⟩, fun i s t r hi h hr earlier => ?_,
    rfl, rfl, rfl, rfl, rfl, rfl, Result.status_ne_seven⟩
  · obtain ⟨r, hshape, hr, -⟩ := exec_withReturned hi h
    refine ⟨r, hr, ?_, ?_, ?_, ?_⟩
    · rintro rfl
      exact hshape
    · rintro input rfl
      exact hshape
    · rintro p cap rfl
      exact hshape
    · rintro chunk rfl
      exact hshape
  · obtain ⟨r', -, hr', hexec⟩ := exec_withReturned hi h
    obtain rfl : r' = r := List.singleton_inj.1 (List.append_cancel_left (hr'.symm.trans hr))
    exact hexec earlier

end Sys2Proof.Machine
end

/-! ## Proofs: the checksum function (R49, R50) -/

section
namespace Sys2Proof.Machine

/-- Over no bytes the run stays at the state it starts from (R49). -/
@[simp] theorem crcRun_nil (s : Word) : crcRun s [] = s := rfl

/-- R50 with the seed of R8 written out. -/
theorem checksum_eq_not_crcRun (bytes : List Byte) : checksum bytes = ~~~ crcRun 0xFFFF bytes := rfl

/-- The edge case of R50: no byte is run, and the complement of the seed is zero. -/
@[simp] theorem checksum_nil : checksum [] = 0x0000 := by
  rw [checksum_eq_not_crcRun, crcRun_nil]
  decide

/-- Settles O13: the definition with the seed written out, and its edge case. -/
theorem checksumIsTheComplementedRun : Obligations.ChecksumIsTheComplementedRun := by
  unfold Obligations.ChecksumIsTheComplementedRun
  exact ⟨checksum_eq_not_crcRun, checksum_nil⟩

end Sys2Proof.Machine
end

/-! ## Proofs: `INIT`, and the capacity of `FEED` (R61 to R64) -/

section
namespace Sys2Proof.Machine

/-- `INIT` completes from every state: the effect of reset, and the result `Ok` (R61). -/
theorem exec_init (s : State) : exec .init s = .next (s.applyReset.respond .ok) := rfl

/-- An occupied length of 0 leaves no byte pending, whatever `BUF` holds (R15). -/
theorem State.pend_of_len_eq_zero {s : State} (h : s.len = 0) : s.pend = [] :=
  List.eq_nil_of_length_eq_zero (s.pend_length.trans h)

/-- Reset changes nothing on a constructed instance with nothing pending (R91). -/
theorem State.applyReset_eq_self {s : State} (hl : s.len = 0) (hc : s.constructed = true) : s.applyReset = s := by
  rw [State.applyReset, ← hl, ← hc]

/-- Settles O26: `INIT` is reset and the result `Ok`, and a second one finds nothing left to reset. -/
theorem initEmptiesTheReassembler : Obligations.InitEmptiesTheReassembler := by
  unfold Obligations.InitEmptiesTheReassembler
  refine ⟨decode_encode_of_isOperation (i := .init) rfl, fun s => ?_⟩
  refine ⟨s.applyReset.respond .ok, exec_init s, rfl, State.pend_of_len_eq_zero rfl, rfl, ?_⟩
  rw [exec_init, State.applyReset_eq_self (s := s.applyReset.respond .ok) rfl rfl]
  rfl

/-- Making room and storing the chunk return no result. -/
@[simp] theorem State.appended_returned (s : State) (chunk : List Byte) : (s.appended chunk).returned = s.returned := by
  rw [State.appended_eq]

/-- The judged frame adds its verdict to the results (R44). -/
@[simp] theorem State.judged_returned (s : State) (f rest : List Byte) :
    (s.judged f rest).returned = s.returned ++ [judge s.maxPacket f] := rfl

/-- The overflow error is no verdict on a frame: it is raised in step 1 only (R62, R84). -/
theorem judge_ne_tooMuchData (maxPacket : Nat) (f : List Byte) : judge maxPacket f ≠ .err .tooMuchData := by
  rcases judge_cases maxPacket f with ⟨p, h⟩ | h | h | h <;> simp [h]

/-- Settles O28: above `CAP` step 1 raises the error; otherwise the result is `None` or the verdict on a frame. -/
theorem feedTooMuchData : Obligations.FeedTooMuchData := by
  unfold Obligations.FeedTooMuchData
  refine fun chunk s hc => ⟨execFeed_of_overflow hc, fun hn _ => ?_⟩
  cases hf : firstIndex (s.appended chunk).pend termByte with
  | none => exact ⟨_, .noFrame, execFeed_of_noFrame hc hn hf, by simp, by simp⟩
  | some t => exact ⟨_, _, execFeed_of_frame hc hn hf, by rw [State.judged_returned, State.appended_returned],
      judge_ne_tooMuchData _ _⟩

/-- The chunk does not fit beside the pending bytes: all of them go (R63). -/
theorem State.makeRoom_of_overflow {s : State} {n : Nat} (h : s.bufCap < s.len + n) : s.makeRoom n = s.setLen 0 :=
  if_pos h

/-- The chunk fits beside the pending bytes: none of them goes (R63). -/
theorem State.makeRoom_of_fits {s : State} {n : Nat} (h : s.len + n ≤ s.bufCap) : s.makeRoom n = s :=
  if_neg (Nat.not_lt.2 h)

/-- Making room leaves the capacity as it is (R7). -/
@[simp] theorem State.makeRoom_bufCap (s : State) (n : Nat) : (s.makeRoom n).bufCap = s.bufCap := by
  rw [State.makeRoom_eq]
  rfl

/-- A chunk that fits beside the pending bytes comes after them (R64). -/
theorem State.appended_len_of_fits {s : State} {chunk : List Byte} (h : s.len + chunk.length ≤ s.bufCap) :
    (s.appended chunk).len = s.len + chunk.length := by
  rw [State.appended_eq, State.makeRoom_of_fits h]

/-- A chunk that discards the pending bytes is stored as with nothing pending (R63, R64). -/
theorem State.appended_of_overflow {s : State} {chunk : List Byte} (hn : chunk.length ≤ s.bufCap)
    (h : s.bufCap < s.len + chunk.length) : s.appended chunk = (s.setLen 0).appended chunk := by
  have hempty : (s.setLen 0).makeRoom chunk.length = s.setLen 0 :=
    State.makeRoom_of_fits ((Nat.zero_add _).trans_le hn)
  rw [State.appended, State.appended, State.makeRoom_of_overflow h, hempty]

/-- The discard is silent: the whole outcome is that with nothing pending (R63). -/
theorem execFeed_of_discard {s : State} {chunk : List Byte} (hn : chunk.length ≤ s.bufCap)
    (h : s.bufCap < s.len + chunk.length) : execFeed chunk s = execFeed chunk (s.setLen 0) := by
  cases hc : s.constructed with
  | false => rw [execFeed_of_unconstructed hc, execFeed_of_unconstructed (s := s.setLen 0) hc]
  | true =>
    rw [execFeed_of_fits hc hn, execFeed_of_fits (s := s.setLen 0) hc hn, State.appended_of_overflow hn h]

/-- Settles O29: the two branches of step 2, and what `FEED` then does with the chunk. -/
theorem feedDiscardsWhatDoesNotFit : Obligations.FeedDiscardsWhatDoesNotFit := by
  unfold Obligations.FeedDiscardsWhatDoesNotFit
  refine ⟨fun chunk s hn => ⟨fun h => ?_, fun h => ?_, ?_⟩, fun s h => State.makeRoom_of_fits h⟩
  · exact ⟨State.makeRoom_of_overflow h, execFeed_of_discard hn h⟩
  · exact ⟨State.makeRoom_of_fits h, State.appended_len_of_fits h⟩
  · exact (State.makeRoom_room hn).trans_eq (State.makeRoom_bufCap s chunk.length)

end Sys2Proof.Machine
end

/-! ## Proofs: the capacity of `ENCODE` (R36, R58, R79) -/

section
namespace Sys2Proof.Machine

/-- A byte takes at most two bytes on the wire (R33). -/
theorem esc_length_le_two (b : Byte) : (esc b).length ≤ 2 := by
  by_cases h : b = termByte ∨ b = escMarker
  · rw [esc_of_special h]
    rfl
  · rw [esc_of_literal (fun ht => h (.inl ht)) (fun hm => h (.inr hm))]
    exact Nat.le_succ 1

theorem escSeq_length_le (bytes : List Byte) : (escSeq bytes).length ≤ 2 * bytes.length := by
  induction bytes with
  | nil => exact Nat.le_refl 0
  | cons b rest ih =>
    have hb := esc_length_le_two b
    simp only [escSeq, List.length_append, List.length_cons]
    omega

/-- No frame is longer than the worst case of its payload's length (R36). -/
theorem frame_length_le_worstCase (p : List Byte) : (frame p).length ≤ worstCase p.length := by
  have hp := escSeq_length_le p
  have ht : (escSeq (trailer (checksum p))).length ≤ 2 * 2 := escSeq_length_le _
  rw [frame_length, worstCase]
  omega

@[simp] theorem freeBytes_length (ctr n : Nat) : (freeBytes ctr n).length = n := by
  simp [freeBytes]

/-- A failed `ENCODE` leaves `OUT` alone from the capacity on (R60). -/
theorem State.scrambleOut_read_of_le (s : State) {cap a : Nat} (h : cap ≤ a) :
    (s.scrambleOut cap).out.read a = s.out.read a := by
  rw [State.scrambleOut_out]
  exact Memory.read_writeBytes_outside _ _ (.inr (by simpa using h))

/-- All that `ENCODE` does when the frame fits (R57, R58). -/
theorem exec_encode_of_fits {p : List Byte} {cap : Nat} {s : State} (hn : p.length ≤ s.maxPacket)
    (h : (frame p).length ≤ cap) (hwf : s.out.wf = true) :
    exec (.encode p cap) s =
      .next { s with crcs := crcRun seed p, out := s.out.writeBytes 0 (frame p),
                     returned := s.returned ++ [.okFrame (frame p)] } := by
  have hread := Memory.readBytes_writeBytes 0 (frame p) hwf
  calc exec (.encode p cap) s
    _ = execEncode p cap s := rfl
    _ = _ := execEncode_of_ok hn (State.encodeSteps_ok h)
    _ = _ := by rw [hread]; rfl

/-- All that `ENCODE` does when the frame does not fit: besides the error it touches only `CRCS`, bytes of `OUT` below
the capacity and the model's counter of free bytes (R58, R60, R79). -/
theorem exec_encode_of_short {p : List Byte} {cap : Nat} {s : State} (hn : p.length ≤ s.maxPacket)
    (h : cap < (frame p).length) :
    ∃ c o k, exec (.encode p cap) s =
      .next { s with crcs := c, out := o, freeCtr := k, returned := s.returned ++ [.err .bufferTooSmall] } ∧
      ∀ a, cap ≤ a → o.read a = s.out.read a := by
  obtain ⟨c, o, hsteps, -, hkeep⟩ := State.encodeSteps_error (s := s) h
  exact ⟨c, _, _, execEncode_of_error hn hsteps, fun a ha =>
    (State.scrambleOut_read_of_le { s with crcs := c, out := o } ha).trans (hkeep a ha)⟩

/-- Settles O24: the capacity is compared with the frame's length, which the worst case bounds. -/
theorem encodeBufferTooSmall : Obligations.EncodeBufferTooSmall := by
  unfold Obligations.EncodeBufferTooSmall
  refine fun p cap s hn => ⟨exec_encode_of_short hn, fun hfit hwf => ?_, fun hworst hwf => ?_⟩
  · exact ⟨_, exec_encode_of_fits hn hfit hwf, rfl⟩
  · have hfit : (frame p).length ≤ cap := (frame_length_le_worstCase p).trans hworst
    exact ⟨_, exec_encode_of_fits hn hfit hwf, rfl⟩

end Sys2Proof.Machine
end

/-! ## Proofs: reset (R91) -/

section
namespace Sys2Proof.Machine

/-- The machine right after reset has no byte pending (R91). -/
@[simp] theorem State.reset_pend : State.reset.pend = [] := State.pend_of_len_eq_zero rfl

/-- Reset of an instance drops every pending byte, from any state (R91). -/
@[simp] theorem State.applyReset_pend (s : State) : s.applyReset.pend = [] :=
  State.pend_of_len_eq_zero s.applyReset_len

/-- Settles O27: both resets leave `LEN` 0, which is nothing pending, and `INIT` is reset with a result. -/
theorem resetLeavesNothingPending : Obligations.ResetLeavesNothingPending := by
  unfold Obligations.ResetLeavesNothingPending
  exact ⟨rfl, State.reset_pend, fun s => ⟨rfl, s.applyReset_pend, exec_init s⟩⟩

end Sys2Proof.Machine
end

/-! ## Proofs: the decoder and the encoder are inverse (R37, R41) -/

section
namespace Sys2Proof.Machine

/-- The class `LIT` by the two values it leaves out (R37). -/
theorem isLiteral_iff (b : Byte) : isLiteral b = true ↔ b ≠ termByte ∧ b ≠ escMarker := by
  simp [isLiteral]

/-- A byte of each class decodes to the class's row (R37). -/
theorem decode_wire_of_literal {b : Byte} (h1 : b ≠ termByte) (h2 : b ≠ escMarker) :
    decode (.wire b) = .ok (.lit b) := by
  rw [decode, classify_lit h1 h2]
  rfl

/-- The entry of a well-formed instruction decodes to it. -/
theorem decode_encode {i : Instr} (h : i.wellFormed = true) : decode (encode i) = .ok i := by
  cases i with
  | init => rfl
  | crc16 input => rfl
  | encode payload cap => rfl
  | feed chunk => rfl
  | term => rfl
  | escm => rfl
  | lit b =>
    obtain ⟨hterm, hescm⟩ := (isLiteral_iff b).1 h
    exact decode_wire_of_literal hterm hescm

/-- Settles O1: a request is read back by its operation word, and a byte by its class. -/
theorem decodeEncodeRoundTrip : Obligations.DecodeEncodeRoundTrip := by
  unfold Obligations.DecodeEncodeRoundTrip
  exact fun i => decode_encode

/-! ### Each operation word admits its own operands and no other (R41) -/

theorem decodeRequest_init (input : List Byte) (cap : Nat) :
    decodeRequest ⟨opInit, input, cap⟩ = if input = [] ∧ cap = 0 then .ok .init else .error .surplusOperand := rfl

theorem decodeRequest_crc16 (input : List Byte) (cap : Nat) :
    decodeRequest ⟨opCrc16, input, cap⟩ = if cap = 0 then .ok (.crc16 input) else .error .surplusOperand := rfl

theorem decodeRequest_encode (input : List Byte) (cap : Nat) :
    decodeRequest ⟨opEncode, input, cap⟩ = .ok (.encode input cap) := rfl

theorem decodeRequest_feed (input : List Byte) (cap : Nat) :
    decodeRequest ⟨opFeed, input, cap⟩ = if cap = 0 then .ok (.feed input) else .error .surplusOperand := rfl

/-- A request that decodes is the one that its operation is encoded as. -/
theorem encode_of_decodeRequest {r : Request} {i : Instr} (h : decodeRequest r = .ok i) :
    encode i = .operation r ∧ i.wellFormed = true := by
  obtain ⟨op, input, cap⟩ := r
  rcases operationWord_cases op with rfl | rfl | rfl | rfl
  · rw [decodeRequest_init] at h
    split at h
    · next hno =>
      obtain ⟨rfl, rfl⟩ := hno
      cases h
      exact ⟨rfl, rfl⟩
    · cases h
  · rw [decodeRequest_crc16] at h
    split at h
    · next hno =>
      subst hno
      cases h
      exact ⟨rfl, rfl⟩
    · cases h
  · cases h
    exact ⟨rfl, rfl⟩
  · rw [decodeRequest_feed] at h
    split at h
    · next hno =>
      subst hno
      cases h
      exact ⟨rfl, rfl⟩
    · cases h

/-- A byte is the one that its class is encoded as (R37). -/
theorem encode_classify (b : Byte) :
    encode (classify b).toInstr = .wire b ∧ (classify b).toInstr.wellFormed = true := by
  by_cases hterm : b = termByte
  · subst hterm
    exact ⟨rfl, rfl⟩
  by_cases hescm : b = escMarker
  · subst hescm
    exact ⟨rfl, rfl⟩
  · rw [classify_lit hterm hescm]
    exact ⟨rfl, (isLiteral_iff b).2 ⟨hterm, hescm⟩⟩

/-- Settles O2: no request but the one of its row decodes to an operation, and no byte but its own to a class. -/
theorem encodeDecodeRoundTrip : Obligations.EncodeDecodeRoundTrip := by
  unfold Obligations.EncodeDecodeRoundTrip
  intro e i h
  cases e with
  | operation r => exact encode_of_decodeRequest h
  | wire b =>
    cases h
    exact encode_classify b

/-- Settles O4: `LIT` is matched after the other two classes fail. -/
theorem receivedByteHasItsClass : Obligations.ReceivedByteHasItsClass := by
  unfold Obligations.ReceivedByteHasItsClass
  exact ⟨rfl, rfl, fun b => decode_wire_of_literal⟩

/-- A table word that stands for an entry decodes as the entry does. -/
theorem decodeTableWord_of_issue {nbits w : Nat} {e : Issue} {i : Instr} (he : issueOfTableWord nbits w = some e)
    (hi : decode e = .ok i) : decodeTableWord nbits w = some i := by
  simp only [decodeTableWord, he, hi]

/-- Settles O5: each word stands for the entry of its row's instruction, with the operands empty and zero. -/
theorem tableWordsDecode : Obligations.TableWordsDecode := by
  unfold Obligations.TableWordsDecode
  have hword {w : Nat} (i : Instr) (hw : issueOfTableWord 8 w = some (encode i)) (hi : i.wellFormed = true) :
      decodeTableWord 8 w = some i := decodeTableWord_of_issue hw (decode_encode hi)
  exact ⟨hword .init rfl rfl, hword (.crc16 []) rfl rfl, hword (.encode [] 0) rfl rfl, hword (.feed []) rfl rfl,
    hword .term rfl rfl, hword .escm rfl rfl, hword (.lit 0x41) rfl rfl⟩

end Sys2Proof.Machine
end

/-! ## Proofs: what each instruction does, said once (R51, R57, R71) -/

section
namespace Sys2Proof.Machine

/-- All that `CRC16` does (R51). -/
theorem exec_crc16 (input : List Byte) (s : State) :
    exec (.crc16 input) s =
      .next { s with crcs := crcRun seed input, returned := s.returned ++ [.okChecksum (checksum input)] } := by
  change execCrc16 input s = _
  rw [execCrc16, State.crcResult_runChecksum, State.runChecksum_eq]
  rfl

/-- Within its bound `ENCODE` completes with one result, keeps `OUT` canonical and stores to it only below the
capacity (R57, R60, R104). -/
theorem exec_encode_effect (p : List Byte) (cap : Nat) {s : State} (hn : p.length ≤ s.maxPacket) :
    ∃ c o k r, exec (.encode p cap) s =
        .next { s with crcs := c, out := o, freeCtr := k, returned := s.returned ++ [r] } ∧
      (s.out.wf = true → o.wf = true) ∧ ∀ a, cap ≤ a → o.read a = s.out.read a := by
  rcases Nat.lt_or_ge cap (frame p).length with hshort | hfit
  · obtain ⟨c, o, hsteps, hwf, hkeep⟩ := State.encodeSteps_error (s := s) hshort
    exact ⟨c, _, _, _, execEncode_of_error hn hsteps, fun h => Memory.wf_writeBytes _ _ (hwf h),
      fun a ha => (State.scrambleOut_read_of_le { s with crcs := c, out := o } ha).trans (hkeep a ha)⟩
  · exact ⟨crcRun seed p, s.out.writeBytes 0 (frame p), s.freeCtr, _, execEncode_of_ok hn (State.encodeSteps_ok hfit),
      fun h => Memory.wf_writeBytes _ _ h, fun a ha => Memory.read_writeBytes_outside _ _ (.inr (by omega))⟩

/-! ### The state after the append -/

@[simp] theorem State.appended_maxPacket (s : State) (chunk : List Byte) :
    (s.appended chunk).maxPacket = s.maxPacket := by rw [State.appended_eq]

@[simp] theorem State.appended_constructed (s : State) (chunk : List Byte) :
    (s.appended chunk).constructed = s.constructed := by rw [State.appended_eq]

@[simp] theorem State.appended_out (s : State) (chunk : List Byte) : (s.appended chunk).out = s.out := by
  rw [State.appended_eq]

@[simp] theorem State.appended_freeCtr (s : State) (chunk : List Byte) : (s.appended chunk).freeCtr = s.freeCtr := by
  rw [State.appended_eq]

@[simp] theorem State.appended_port (s : State) (chunk : List Byte) : (s.appended chunk).port = s.port := by
  rw [State.appended_eq]

@[simp] theorem State.appended_bufCap (s : State) (chunk : List Byte) : (s.appended chunk).bufCap = s.bufCap := by
  rw [State.bufCap, State.appended_maxPacket, State.bufCap]

theorem State.appended_buf (s : State) (chunk : List Byte) :
    (s.appended chunk).buf = s.buf.writeBytes (s.makeRoom chunk.length).len chunk := by rw [State.appended_eq]

/-- The append keeps `BUF` canonical. -/
theorem State.appended_buf_wf {s : State} (chunk : List Byte) (h : s.buf.wf = true) :
    (s.appended chunk).buf.wf = true := by
  rw [State.appended_buf]
  exact Memory.wf_writeBytes _ _ h

/-! ### The state after a judged frame -/

@[simp] theorem State.judged_maxPacket (s : State) (f rest : List Byte) :
    (s.judged f rest).maxPacket = s.maxPacket := rfl

@[simp] theorem State.judged_constructed (s : State) (f rest : List Byte) :
    (s.judged f rest).constructed = s.constructed := rfl

@[simp] theorem State.judged_out (s : State) (f rest : List Byte) : (s.judged f rest).out = s.out := rfl

@[simp] theorem State.judged_freeCtr (s : State) (f rest : List Byte) : (s.judged f rest).freeCtr = s.freeCtr := rfl

@[simp] theorem State.judged_port (s : State) (f rest : List Byte) : (s.judged f rest).port = s.port := rfl

@[simp] theorem State.judged_len (s : State) (f rest : List Byte) : (s.judged f rest).len = rest.length := rfl

@[simp] theorem State.judged_bufCap (s : State) (f rest : List Byte) : (s.judged f rest).bufCap = s.bufCap := rfl

theorem State.judged_buf (s : State) (f rest : List Byte) : (s.judged f rest).buf = s.buf.writeBytes 0 rest := rfl

/-- The bytes behind the judged frame are those that stay pending (R68). -/
theorem State.judged_pend {s : State} (f rest : List Byte) (h : s.buf.wf = true) : (s.judged f rest).pend = rest :=
  State.pend_consume h

/-! ### The three outcomes of `FEED` -/

/-- `FEED` when nothing pending after the append is a terminator (R65). -/
theorem exec_feed_of_no_terminator {s : State} {chunk : List Byte} (hc : s.constructed = true)
    (hn : chunk.length ≤ s.bufCap) (h : termByte ∉ (s.appended chunk).pend) :
    exec (.feed chunk) s = .next ((s.appended chunk).respond .noFrame) :=
  execFeed_of_noFrame hc hn ((firstIndex_eq_none_iff _ _).2 h)

/-- `FEED` when the bytes pending after the append hold the frame `f` before their first terminator (R66 to R70). -/
theorem exec_feed_of_terminator {s : State} {chunk f rest : List Byte} (hc : s.constructed = true)
    (hn : chunk.length ≤ s.bufCap) (hf : termByte ∉ f) (h : (s.appended chunk).pend = f ++ termByte :: rest) :
    exec (.feed chunk) s = .next ((s.appended chunk).judged f rest) := by
  have hidx : firstIndex (s.appended chunk).pend termByte = some f.length := by
    rw [h, firstIndex_append_of_not_mem hf]
  have hfeed : exec (.feed chunk) s = _ := execFeed_of_frame hc hn hidx
  rw [hfeed, h, List.take_left, ← List.drop_drop, List.drop_left]
  rfl

/-- On a constructed instance `FEED` rejects the chunk, or keeps it and finds no terminator, or judges the bytes before
the first one (R71, R74). -/
theorem exec_feed_cases (chunk : List Byte) {s : State} (hc : s.constructed = true) :
    (s.bufCap < chunk.length ∧ exec (.feed chunk) s = .next (s.raiseError .tooMuchData)) ∨
    (chunk.length ≤ s.bufCap ∧ termByte ∉ (s.appended chunk).pend ∧
      exec (.feed chunk) s = .next ((s.appended chunk).respond .noFrame)) ∨
    ∃ f rest, chunk.length ≤ s.bufCap ∧ termByte ∉ f ∧ (s.appended chunk).pend = f ++ termByte :: rest ∧
      exec (.feed chunk) s = .next ((s.appended chunk).judged f rest) := by
  rcases Nat.lt_or_ge s.bufCap chunk.length with hn | hn
  · exact .inl ⟨hn, execFeed_of_overflow hc hn⟩
  by_cases hmem : termByte ∈ (s.appended chunk).pend
  · obtain ⟨f, rest, hpend, hf⟩ := List.eq_append_cons_of_mem hmem
    exact .inr (.inr ⟨f, rest, hn, hf, hpend, exec_feed_of_terminator hc hn hf hpend⟩)
  · exact .inr (.inl ⟨hn, hmem, exec_feed_of_no_terminator hc hn hmem⟩)

/-- What stays pending behind a frame fits the buffer (R15). -/
theorem State.rest_length_le {s : State} {chunk f rest : List Byte} (hn : chunk.length ≤ s.bufCap)
    (h : (s.appended chunk).pend = f ++ termByte :: rest) : rest.length ≤ s.bufCap := by
  have hle := State.appended_len_le hn
  rw [← State.pend_length, h, State.appended_bufCap, List.length_append, List.length_cons] at hle
  omega

end Sys2Proof.Machine
end

/-! ## Proofs: which instructions are refused, and that none faults (R54, R92, R37) -/

section
namespace Sys2Proof.Machine

/-- Why the instruction has no meaning on this state, if it has none. -/
def refusalOf : Instr → State → Option Refusal
  | .encode p _, s => if s.maxPacket < p.length then some .payloadTooLong else none
  | .feed _, s => if s.constructed = false then some .neverConstructed else none
  | .lit b, _ => if isLiteral b then none else some .notALiteral
  | .init, _ => none
  | .crc16 _, _ => none
  | .term, _ => none
  | .escm, _ => none

theorem refusalOf_encode_eq_none_iff (p : List Byte) (cap : Nat) (s : State) :
    refusalOf (.encode p cap) s = none ↔ p.length ≤ s.maxPacket := by
  simp [refusalOf]

theorem refusalOf_feed_eq_none_iff (chunk : List Byte) (s : State) :
    refusalOf (.feed chunk) s = none ↔ s.constructed = true := by
  simp [refusalOf]

/-- The refusals, written out. -/
theorem refusalOf_eq_some_iff (i : Instr) (s : State) (r : Refusal) :
    refusalOf i s = some r ↔
      (∃ p cap, i = .encode p cap ∧ s.maxPacket < p.length ∧ r = .payloadTooLong) ∨
      (∃ chunk, i = .feed chunk ∧ s.constructed = false ∧ r = .neverConstructed) ∨
      (∃ b, i = .lit b ∧ (b = 0x7E ∨ b = 0x7D) ∧ r = .notALiteral) := by
  cases i with
  | encode p cap => simp [refusalOf, eq_comm (b := r)]
  | feed chunk => simp [refusalOf, eq_comm (b := r)]
  | lit b =>
    have hlit : isLiteral b = false ↔ b = 0x7E ∨ b = 0x7D := by
      rw [← Bool.not_eq_true, isLiteral_iff, not_and_or, not_not, not_not]
      rfl
    simpa [refusalOf, eq_comm (b := r)] using fun _ => hlit
  | init => simp [refusalOf]
  | crc16 input => simp [refusalOf]
  | term => simp [refusalOf]
  | escm => simp [refusalOf]

theorem exec_of_refusal {i : Instr} {s : State} {r : Refusal} (h : refusalOf i s = some r) :
    exec i s = .refused r := by
  rcases (refusalOf_eq_some_iff i s r).1 h with ⟨p, cap, rfl, hlong, rfl⟩ | ⟨chunk, rfl, hc, rfl⟩ | ⟨b, rfl, -, rfl⟩
  · exact execEncode_of_tooLong hlong
  · exact execFeed_of_unconstructed hc
  · have hlit : ¬ isLiteral b = true := fun hb => by simp [refusalOf, hb] at h
    exact if_neg hlit

/-- Everything that is not refused completes. -/
theorem exec_of_no_refusal {i : Instr} {s : State} (h : refusalOf i s = none) : ∃ t, exec i s = .next t := by
  cases i with
  | init => exact ⟨_, exec_init s⟩
  | crc16 input => exact ⟨_, exec_crc16 input s⟩
  | encode p cap =>
    obtain ⟨c, o, k, r, hexec, -⟩ := exec_encode_effect p cap ((refusalOf_encode_eq_none_iff p cap s).1 h)
    exact ⟨_, hexec⟩
  | feed chunk =>
    rcases exec_feed_cases chunk ((refusalOf_feed_eq_none_iff chunk s).1 h) with
      ⟨-, hexec⟩ | ⟨-, -, hexec⟩ | ⟨f, rest, -, -, -, hexec⟩ <;> exact ⟨_, hexec⟩
  | term => exact ⟨_, rfl⟩
  | escm => exact ⟨_, rfl⟩
  | lit b =>
    have hlit : isLiteral b = true := by simpa [refusalOf] using h
    exact ⟨_, if_pos hlit⟩

theorem exec_eq_refused_iff {i : Instr} {s : State} {r : Refusal} :
    exec i s = .refused r ↔ refusalOf i s = some r := by
  cases h : refusalOf i s with
  | some r' => simp [exec_of_refusal h]
  | none =>
    obtain ⟨t, ht⟩ := exec_of_no_refusal h
    simp [ht]

theorem refusalOf_eq_none_of_next {i : Instr} {s t : State} (h : exec i s = .next t) : refusalOf i s = none := by
  cases hr : refusalOf i s with
  | none => rfl
  | some r => cases h.symm.trans (exec_of_refusal hr)

theorem exec_ne_fault (i : Instr) (s : State) (f : Fault) : exec i s ≠ .fault f := by
  cases hr : refusalOf i s with
  | none =>
    obtain ⟨t, ht⟩ := exec_of_no_refusal hr
    simp [ht]
  | some r => simp [exec_of_refusal hr]

/-- Settles O54: an instruction is refused as `refusalOf` says, and that is the three cases. -/
theorem refusalsAreTheStatedOnes : Obligations.RefusalsAreTheStatedOnes := by
  unfold Obligations.RefusalsAreTheStatedOnes
  exact fun i s r => exec_eq_refused_iff.trans (refusalOf_eq_some_iff i s r)

end Sys2Proof.Machine
end

/-! ## Proofs: the step (R3, R12, R43) -/

section
namespace Sys2Proof.Machine

theorem step_of_idle {s : State} (h : s.port = []) : step s = .next s := by
  simp only [step, State.fetch, h]

theorem step_of_issued {s : State} {e : Issue} {rest : List Issue} {i : Instr} (hp : s.port = e :: rest)
    (hd : decode e = .ok i) : step s = exec i { s with port := rest } := by
  simp only [step, State.fetch, hp, hd]

theorem step_of_malformed {s : State} {e : Issue} {rest : List Issue} {q : Reject} (hp : s.port = e :: rest)
    (hd : decode e = .error q) : step s = .refused (.malformedRequest q) := by
  simp only [step, State.fetch, hp, hd]

/-- Settles O6: the two cases of a step that is not malformed. -/
theorem stepRunsTheDecodedInstruction : Obligations.StepRunsTheDecodedInstruction := by
  unfold Obligations.StepRunsTheDecodedInstruction
  exact ⟨fun _ _ _ _ hp hd => step_of_issued hp hd, fun _ hp => step_of_idle hp⟩

/-- What the outcome of a step can be: idle, an execution, or a malformed request. -/
theorem step_cases (s : State) :
    (s.port = [] ∧ step s = .next s) ∨
    (∃ e rest i, s.port = e :: rest ∧ decode e = .ok i ∧ step s = exec i { s with port := rest }) ∨
    ∃ e rest q, s.port = e :: rest ∧ decode e = .error q ∧ step s = .refused (.malformedRequest q) := by
  cases hp : s.port with
  | nil => exact .inl ⟨rfl, step_of_idle hp⟩
  | cons e rest =>
    cases hd : decode e with
    | ok i => exact .inr (.inl ⟨e, rest, i, rfl, hd, step_of_issued hp hd⟩)
    | error q => exact .inr (.inr ⟨e, rest, q, rfl, hd, step_of_malformed hp hd⟩)

/-- No instruction is refused as malformed: only the decoder's rejection is. -/
theorem step_eq_malformed_iff {s : State} {e : Issue} {rest : List Issue} {q : Reject} (hp : s.port = e :: rest) :
    step s = .refused (.malformedRequest q) ↔ decode e = .error q := by
  cases hd : decode e with
  | error q' => simp [step_of_malformed hp hd]
  | ok i =>
    rw [step_of_issued hp hd, exec_eq_refused_iff, refusalOf_eq_some_iff]
    simp

/-- A request is rejected exactly when it carries an operand that its operation does not take. -/
theorem decodeRequest_eq_surplus_iff (r : Request) :
    decodeRequest r = .error .surplusOperand ↔
      (r.op = opInit ∧ (r.input ≠ [] ∨ r.cap ≠ 0)) ∨ ((r.op = opCrc16 ∨ r.op = opFeed) ∧ r.cap ≠ 0) := by
  obtain ⟨op, input, cap⟩ := r
  rcases operationWord_cases op with rfl | rfl | rfl | rfl
  · rw [decodeRequest_init]
    simp [opInit, opCrc16, opFeed, imp_iff_not_or]
  · rw [decodeRequest_crc16]
    simp [opInit, opCrc16, opFeed]
  · rw [decodeRequest_encode]
    simp [opInit, opCrc16, opFeed, opEncode]
  · rw [decodeRequest_feed]
    simp [opInit, opCrc16, opFeed]

/-- Settles O7: the step refuses what the decoder rejects, and that is a surplus operand. -/
theorem surplusOperandIsRefused : Obligations.SurplusOperandIsRefused := by
  unfold Obligations.SurplusOperandIsRefused
  exact fun s r rest hp => ((step_eq_malformed_iff hp).trans (decodeRequest_eq_surplus_iff r)).symm

/-- Settles O53: an execution does not fault, and the step adds no access of its own. -/
theorem noStepFaults : Obligations.NoStepFaults := by
  unfold Obligations.NoStepFaults
  intro s f
  rcases step_cases s with ⟨-, h⟩ | ⟨e, rest, i, -, -, h⟩ | ⟨e, rest, q, -, -, h⟩
  · simp [h]
  · rw [h]
    exact exec_ne_fault i _ f
  · simp [h]

end Sys2Proof.Machine
end

/-! ## Proofs: what every instruction keeps (R6, R13 to R15, R18) -/

section
namespace Sys2Proof.Machine

/-- `FEED` that completes ran on a constructed instance (R92). -/
theorem constructed_of_exec_feed {chunk : List Byte} {s t : State} (h : exec (.feed chunk) s = .next t) :
    s.constructed = true :=
  (refusalOf_feed_eq_none_iff chunk s).1 (refusalOf_eq_none_of_next h)

/-- An `ENCODE` that completes kept its bound (R54). -/
theorem length_le_of_exec_encode {p : List Byte} {cap : Nat} {s t : State} (h : exec (.encode p cap) s = .next t) :
    p.length ≤ s.maxPacket :=
  (refusalOf_encode_eq_none_iff p cap s).1 (refusalOf_eq_none_of_next h)

/-- A `LIT` that completes appends to the walk. -/
theorem eq_walkClass_of_exec_lit {b : Byte} {s t : State} (h : exec (.lit b) s = .next t) :
    t = s.walkClass (.lit b) := by
  have hlit : isLiteral b = true := by simpa [refusalOf] using refusalOf_eq_none_of_next h
  exact Host.Outcome.next.inj (h.symm.trans (if_pos hlit))

/-- The parameter, the port, the results returned before and the record of construction, along an instruction. -/
structure State.KeptBy (s t : State) : Prop where
  maxPacket : t.maxPacket = s.maxPacket
  port : t.port = s.port
  returned : ∃ rs, t.returned = s.returned ++ rs
  constructed : s.constructed = true → t.constructed = true

theorem keptBy_of_exec {i : Instr} {s t : State} (h : exec i s = .next t) : s.KeptBy t := by
  cases i with
  | init =>
    cases h
    exact ⟨rfl, rfl, ⟨_, rfl⟩, fun _ => rfl⟩
  | crc16 input =>
    cases h.symm.trans (exec_crc16 input s)
    exact ⟨rfl, rfl, ⟨_, rfl⟩, id⟩
  | encode p cap =>
    obtain ⟨c, o, k, r, hexec, -⟩ := exec_encode_effect p cap (length_le_of_exec_encode h)
    cases h.symm.trans hexec
    exact ⟨rfl, rfl, ⟨_, rfl⟩, id⟩
  | feed chunk =>
    rcases exec_feed_cases chunk (constructed_of_exec_feed h) with
      ⟨-, hexec⟩ | ⟨-, -, hexec⟩ | ⟨f, rest, -, -, -, hexec⟩
    · cases h.symm.trans hexec
      exact ⟨rfl, rfl, ⟨_, rfl⟩, id⟩
    · cases h.symm.trans hexec
      exact ⟨by simp, by simp, ⟨[.noFrame], by simp⟩, by simp⟩
    · cases h.symm.trans hexec
      exact ⟨by simp, by simp, ⟨[judge s.maxPacket f], by simp⟩, by simp⟩
  | term =>
    cases h
    rw [State.endFrame_eq]
    exact ⟨rfl, rfl, ⟨_, rfl⟩, id⟩
  | escm =>
    cases h
    exact ⟨rfl, rfl, ⟨[], by simp⟩, id⟩
  | lit b =>
    rw [eq_walkClass_of_exec_lit h]
    exact ⟨rfl, rfl, ⟨[], by simp⟩, id⟩

/-- Settles O57: each instruction leaves the four as `State.KeptBy` says. -/
theorem noInstructionChangesTheParameter : Obligations.NoInstructionChangesTheParameter := by
  unfold Obligations.NoInstructionChangesTheParameter
  intro i s t h
  obtain ⟨hparam, hport, hret, hcons⟩ := keptBy_of_exec h
  exact ⟨hparam, hport, hret, hcons⟩

/-! ### Legal states -/

theorem State.Inv.buf_wf {s : State} (h : s.Inv) : s.buf.wf = true := by
  obtain ⟨-, -, hbuf, -, -⟩ := h
  exact hbuf

theorem State.Inv.out_wf {s : State} (h : s.Inv) : s.out.wf = true := by
  obtain ⟨-, -, -, -, hout⟩ := h
  exact hout

/-- The append of a chunk that fits keeps the state legal. -/
theorem State.Inv.appended {s : State} {chunk : List Byte} (h : s.Inv) (hn : chunk.length ≤ s.bufCap) :
    (s.appended chunk).Inv := by
  obtain ⟨hparam, -, hbuf, hbelow, hout⟩ := h
  have hroom := State.makeRoom_room hn
  rw [State.makeRoom_bufCap] at hroom
  refine ⟨?_, State.appended_len_le hn, State.appended_buf_wf chunk hbuf, ?_, ?_⟩
  · simpa using hparam
  · rw [State.appended_buf, State.appended_bufCap]
    exact Memory.below_writeBytes _ _ hbelow hroom
  · simpa using hout

/-- The end of a frame keeps the state legal when what stays pending fits. -/
theorem State.Inv.judged {s : State} {rest : List Byte} (f : List Byte) (h : s.Inv) (hr : rest.length ≤ s.bufCap) :
    (s.judged f rest).Inv := by
  obtain ⟨hparam, -, hbuf, hbelow, hout⟩ := h
  exact ⟨hparam, hr, Memory.wf_writeBytes _ _ hbuf,
    Memory.below_writeBytes _ _ hbelow ((Nat.zero_add _).trans_le hr), hout⟩

/-- A change of what the invariant does not speak of, and of `OUT` as long as it stays canonical. -/
theorem State.Inv.congr {s t : State} (h : s.Inv) (hparam : t.maxPacket = s.maxPacket) (hlen : t.len = s.len)
    (hbuf : t.buf = s.buf) (hout : t.out.wf = true) : t.Inv := by
  obtain ⟨hmax, hle, hwf, hbelow, -⟩ := h
  simp only [State.Inv, State.bufCap, hparam, hlen, hbuf] at *
  exact ⟨hmax, hle, hwf, hbelow, hout⟩

theorem State.Inv.exec {i : Instr} {s t : State} (hs : s.Inv) (h : exec i s = .next t) : t.Inv := by
  have hout := hs.out_wf
  cases i with
  | init =>
    cases h
    obtain ⟨hparam, -, hbuf, hbelow, -⟩ := hs
    exact ⟨hparam, Nat.zero_le _, hbuf, hbelow, hout⟩
  | crc16 input =>
    cases h.symm.trans (exec_crc16 input s)
    exact hs.congr rfl rfl rfl hout
  | encode p cap =>
    obtain ⟨c, o, k, r, hexec, hwf, -⟩ := exec_encode_effect p cap (length_le_of_exec_encode h)
    cases h.symm.trans hexec
    exact hs.congr rfl rfl rfl (hwf hout)
  | feed chunk =>
    rcases exec_feed_cases chunk (constructed_of_exec_feed h) with
      ⟨-, hexec⟩ | ⟨hn, -, hexec⟩ | ⟨f, rest, hn, -, hpend, hexec⟩
    · cases h.symm.trans hexec
      exact hs.congr rfl rfl rfl hout
    · cases h.symm.trans hexec
      exact (hs.appended hn).congr rfl rfl rfl (hs.appended hn).out_wf
    · cases h.symm.trans hexec
      refine (hs.appended hn).judged f ?_
      rw [State.appended_bufCap]
      exact State.rest_length_le hn hpend
  | term =>
    cases h
    rw [State.endFrame_eq]
    exact hs.congr rfl rfl rfl hout
  | escm =>
    cases h
    exact hs.congr rfl rfl rfl hout
  | lit b =>
    rw [eq_walkClass_of_exec_lit h]
    exact hs.congr rfl rfl rfl hout

/-- Settles O52: the invariant does not speak of the port, and each instruction keeps it. -/
theorem everyStepKeepsTheStateLegal : Obligations.EveryStepKeepsTheStateLegal := by
  unfold Obligations.EveryStepKeepsTheStateLegal
  intro s t hs h
  rcases step_cases s with ⟨-, hstep⟩ | ⟨e, rest, i, -, -, hstep⟩ | ⟨e, rest, q, -, -, hstep⟩
  · cases h.symm.trans hstep
    exact hs
  · have hport : ({ s with port := rest } : State).Inv := hs
    exact hport.exec (hstep.symm.trans h)
  · cases h.symm.trans hstep

/-- Settles O51: `MAX_PACKET` is at least 3 whatever its value, and nothing is stored or pending. -/
theorem resetIsALegalState : Obligations.ResetIsALegalState := by
  unfold Obligations.ResetIsALegalState
  have hparam : 3 ≤ Config.maxPacket := Nat.le_add_left 3 _
  exact ⟨hparam, Nat.zero_le _, rfl, rfl, rfl⟩

/-! ### Runs -/

theorem execAll_cons_of_next {i : Instr} {is : List Instr} {s t : State} (h : exec i s = .next t) :
    execAll (i :: is) s = execAll is t := by
  simp only [execAll, h]

theorem execAll_cons_of_refused {i : Instr} {is : List Instr} {s : State} {r : Refusal}
    (h : exec i s = .refused r) : execAll (i :: is) s = .refused r := by
  simp only [execAll, h]

/-- An instruction that keeps the host's duties is not refused on a constructed instance. -/
theorem refusalOf_eq_none_of_lawful {i : Instr} {s : State} (hc : s.constructed = true)
    (hw : i.wellFormed = true) (hb : i.withinBound s.maxPacket = true) : refusalOf i s = none := by
  cases i with
  | encode p cap => exact (refusalOf_encode_eq_none_iff p cap s).2 (of_decide_eq_true hb)
  | feed chunk => exact (refusalOf_feed_eq_none_iff chunk s).2 hc
  | lit b => exact if_pos hw
  | init => rfl
  | crc16 input => rfl
  | term => rfl
  | escm => rfl

/-- Settles O55, by induction on the sequence: the duties are those of the same `MAX_PACKET` after each instruction. -/
theorem lawfulRunsNeverStop : Obligations.LawfulRunsNeverStop := by
  unfold Obligations.LawfulRunsNeverStop
  intro is
  induction is with
  | nil => exact fun s _ _ => ⟨s, rfl⟩
  | cons i rest ih =>
    intro s hc hlaw
    obtain ⟨hw, hb⟩ := hlaw i List.mem_cons_self
    obtain ⟨t, ht⟩ := exec_of_no_refusal (refusalOf_eq_none_of_lawful hc hw hb)
    have hkept := keptBy_of_exec ht
    rw [execAll_cons_of_next ht]
    refine ih t (hkept.constructed hc) ?_
    rw [hkept.maxPacket]
    exact fun j hj => hlaw j (List.mem_cons_of_mem i hj)

end Sys2Proof.Machine
end

/-! ## Proofs: `FEED` on pending bytes, and operations that see nothing else (R75, R103) -/

section
namespace Sys2Proof.Machine

theorem feedPure_of_overflow {maxPacket : Nat} {pend chunk : List Byte} (h : 2 * maxPacket < chunk.length) :
    feedPure maxPacket pend chunk = (pend, .err .tooMuchData) :=
  if_pos h

theorem feedPure_of_no_terminator {maxPacket : Nat} {pend chunk : List Byte} (hn : chunk.length ≤ 2 * maxPacket)
    (h : termByte ∉ pendingAfterAppend maxPacket pend chunk) :
    feedPure maxPacket pend chunk = (pendingAfterAppend maxPacket pend chunk, .noFrame) := by
  simp only [feedPure, if_neg (Nat.not_lt.2 hn), (firstIndex_eq_none_iff _ _).2 h]

theorem feedPure_of_terminator {maxPacket : Nat} {pend chunk f rest : List Byte} (hn : chunk.length ≤ 2 * maxPacket)
    (hf : termByte ∉ f) (h : pendingAfterAppend maxPacket pend chunk = f ++ termByte :: rest) :
    feedPure maxPacket pend chunk = (rest, judge maxPacket f) := by
  simp only [feedPure, if_neg (Nat.not_lt.2 hn), h, firstIndex_append_of_not_mem hf, List.take_left]
  rw [← List.drop_drop, List.drop_left]
  rfl

/-- `FEED` keeps `BUF` canonical, from any state. -/
theorem buf_wf_of_exec_feed {chunk : List Byte} {s t : State} (hwf : s.buf.wf = true)
    (h : exec (.feed chunk) s = .next t) : t.buf.wf = true := by
  have happ := State.appended_buf_wf chunk hwf
  rcases exec_feed_cases chunk (constructed_of_exec_feed h) with
    ⟨-, hexec⟩ | ⟨-, -, hexec⟩ | ⟨f, rest, -, -, -, hexec⟩ <;> cases h.symm.trans hexec
  · exact hwf
  · exact happ
  · exact Memory.wf_writeBytes _ _ happ

/-- `FEED` keeps `LEN` within `CAP` (R15). -/
theorem len_le_of_exec_feed {chunk : List Byte} {s t : State} (hlen : s.len ≤ s.bufCap)
    (h : exec (.feed chunk) s = .next t) : t.len ≤ t.bufCap := by
  rcases exec_feed_cases chunk (constructed_of_exec_feed h) with
    ⟨-, hexec⟩ | ⟨hn, -, hexec⟩ | ⟨f, rest, hn, -, hpend, hexec⟩ <;> cases h.symm.trans hexec
  · exact hlen
  · exact State.appended_len_le hn
  · simpa using State.rest_length_le hn hpend

/-- The refinement: `FEED` over `BUF` and `LEN` does what `feedPure` does to the pending bytes (R75). -/
theorem exec_feed_refines (chunk : List Byte) {s : State} (hc : s.constructed = true) (hwf : s.buf.wf = true) :
    ∃ t, exec (.feed chunk) s = .next t ∧ t.pend = (feedPure s.maxPacket s.pend chunk).1 ∧
      t.returned = s.returned ++ [(feedPure s.maxPacket s.pend chunk).2] := by
  have hpend := State.pend_appended chunk hwf
  rcases exec_feed_cases chunk hc with ⟨hn, hexec⟩ | ⟨hn, hno, hexec⟩ | ⟨f, rest, hn, hf, hfr, hexec⟩
  · rw [feedPure_of_overflow hn]
    exact ⟨_, hexec, rfl, rfl⟩
  · rw [hpend] at hno
    rw [feedPure_of_no_terminator hn hno]
    exact ⟨_, hexec, hpend, by simp⟩
  · rw [hpend] at hfr
    rw [feedPure_of_terminator hn hf hfr]
    exact ⟨_, hexec, State.judged_pend f rest (State.appended_buf_wf chunk hwf), by simp⟩

/-- Settles O35: the refinement, and `LEN` within `CAP` after each outcome. -/
theorem feedRefinesThePureFunction : Obligations.FeedRefinesThePureFunction := by
  unfold Obligations.FeedRefinesThePureFunction
  intro chunk s hc hwf
  obtain ⟨t, hexec, hpend, hret⟩ := exec_feed_refines chunk hc hwf
  exact ⟨t, hexec, hpend, hret, fun hlen => len_le_of_exec_feed hlen hexec⟩

/-! ### Every operation as a function of the pending bytes -/

/-- The pending bytes after an operation and its result, as a function of `MAX_PACKET` and the pending bytes; a byte
class is no operation and has no answer. -/
def answer (maxPacket : Nat) (pend : List Byte) : Instr → Option (List Byte × Result)
  | .init => some ([], .ok)
  | .crc16 input => some (pend, .okChecksum (checksum input))
  | .encode p cap => some (pend, if (frame p).length ≤ cap then .okFrame (frame p) else .err .bufferTooSmall)
  | .feed chunk => some (feedPure maxPacket pend chunk)
  | .term => none
  | .escm => none
  | .lit _ => none

theorem exists_answer {i : Instr} (hi : i.isOperation = true) (maxPacket : Nat) (pend : List Byte) :
    ∃ a, answer maxPacket pend i = some a := by
  cases i with
  | init => exact ⟨_, rfl⟩
  | crc16 input => exact ⟨_, rfl⟩
  | encode p cap => exact ⟨_, rfl⟩
  | feed chunk => exact ⟨_, rfl⟩
  | term => cases hi
  | escm => cases hi
  | lit b => cases hi

/-- Besides the results, `ENCODE` within its bound leaves the reassembler's state as it is, and its result is the one
of `answer` (R57, R58, R79). -/
theorem exec_encode_answer (p : List Byte) (cap : Nat) {s : State} (hn : p.length ≤ s.maxPacket)
    (hout : s.out.wf = true) :
    ∃ c o k, exec (.encode p cap) s =
      .next { s with crcs := c, out := o, freeCtr := k, returned := s.returned ++
        [if (frame p).length ≤ cap then .okFrame (frame p) else .err .bufferTooSmall] } := by
  by_cases hfit : (frame p).length ≤ cap
  · rw [if_pos hfit]
    exact ⟨_, _, s.freeCtr, exec_encode_of_fits hn hfit hout⟩
  · rw [if_neg hfit]
    obtain ⟨c, o, k, hexec, -⟩ := exec_encode_of_short hn (Nat.lt_of_not_le hfit)
    exact ⟨c, o, k, hexec⟩

/-- An operation that is not refused answers as `answer` says (R103). -/
theorem exec_answer {i : Instr} {s : State} {a : List Byte × Result} (hs : s.Inv) (hr : refusalOf i s = none)
    (ha : answer s.maxPacket s.pend i = some a) :
    ∃ t, exec i s = .next t ∧ t.constructed = (decide (i = .init) || s.constructed) ∧ t.pend = a.1 ∧
      t.returned = s.returned ++ [a.2] := by
  cases i with
  | init =>
    cases ha
    exact ⟨_, exec_init s, rfl, State.applyReset_pend s, rfl⟩
  | crc16 input =>
    cases ha
    exact ⟨_, exec_crc16 input s, by simp, rfl, rfl⟩
  | encode p cap =>
    cases ha
    obtain ⟨c, o, k, hexec⟩ :=
      exec_encode_answer p cap ((refusalOf_encode_eq_none_iff p cap s).1 hr) hs.out_wf
    exact ⟨_, hexec, by simp, rfl, rfl⟩
  | feed chunk =>
    cases ha
    have hc := (refusalOf_feed_eq_none_iff chunk s).1 hr
    obtain ⟨t, hexec, hpend, hret⟩ := exec_feed_refines chunk hc hs.buf_wf
    exact ⟨t, hexec, by simp [hc, (keptBy_of_exec hexec).constructed hc], hpend, hret⟩
  | term => cases ha
  | escm => cases ha
  | lit b => cases ha

/-- Whether an instruction is refused can be told from the parameter and the record of construction. -/
theorem refusalOf_congr (i : Instr) {s t : State} (hparam : s.maxPacket = t.maxPacket)
    (hcons : s.constructed = t.constructed) : refusalOf i s = refusalOf i t := by
  cases i with
  | encode p cap => simp only [refusalOf, hparam]
  | feed chunk => simp only [refusalOf, hcons]
  | init => rfl
  | crc16 input => rfl
  | term => rfl
  | escm => rfl
  | lit b => rfl

/-- The simulation step: legal instances that are alike answer an operation alike and stay alike. -/
theorem exec_alike {i : Instr} {s t : State} (hi : i.isOperation = true) (hs : s.Inv) (ht : t.Inv) (hst : s.alike t) :
    (∃ s' t' r, exec i s = .next s' ∧ exec i t = .next t' ∧ s'.alike t' ∧
      s'.returned = s.returned ++ [r] ∧ t'.returned = t.returned ++ [r]) ∨
    ∃ r, exec i s = .refused r ∧ exec i t = .refused r := by
  obtain ⟨hparam, hcons, hpend⟩ := hst
  have hcongr := refusalOf_congr i hparam hcons
  cases hr : refusalOf i s with
  | some r => exact .inr ⟨r, exec_of_refusal hr, exec_of_refusal (hcongr.symm.trans hr)⟩
  | none =>
    obtain ⟨a, ha⟩ := exists_answer hi s.maxPacket s.pend
    obtain ⟨s', hexec, hc, hp, hret⟩ := exec_answer hs hr ha
    rw [hparam, hpend] at ha
    obtain ⟨t', hexec', hc', hp', hret'⟩ := exec_answer ht (hcongr.symm.trans hr) ha
    refine .inl ⟨s', t', a.2, hexec, hexec', ⟨?_, ?_, hp.trans hp'.symm⟩, hret, hret'⟩
    · rw [(keptBy_of_exec hexec).maxPacket, (keptBy_of_exec hexec').maxPacket, hparam]
    · rw [hc, hc', hcons]

/-- Settles O59, by induction on the sequence with the simulation step. -/
theorem onlyPendingBytesAreRemembered : Obligations.OnlyPendingBytesAreRemembered := by
  unfold Obligations.OnlyPendingBytesAreRemembered
  intro is
  induction is with
  | nil => exact fun s t _ _ _ hst => .inl ⟨s, t, [], rfl, rfl, hst, by simp, by simp⟩
  | cons i rest ih =>
    intro s t his hs ht hst
    rcases exec_alike (his i List.mem_cons_self) hs ht hst with
      ⟨s1, t1, r, hexec, hexec', halike, hret, hret'⟩ | ⟨r, hexec, hexec'⟩
    · rw [execAll_cons_of_next hexec, execAll_cons_of_next hexec']
      rcases ih s1 t1 (fun j hj => his j (List.mem_cons_of_mem i hj)) (hs.exec hexec) (ht.exec hexec') halike with
        ⟨s', t', rs, hall, hall', halike', hrs, hrs'⟩ | hrefused
      · exact .inl ⟨s', t', r :: rs, hall, hall', halike', by simp [hrs, hret], by simp [hrs', hret']⟩
      · exact .inr hrefused
    · exact .inr ⟨r, execAll_cons_of_refused hexec, execAll_cons_of_refused hexec'⟩

/-- Settles O58: the results are those of `answer`, and the reassembler's fields are not among those changed. -/
theorem crc16AndEncodeArePure : Obligations.Crc16AndEncodeArePure := by
  unfold Obligations.Crc16AndEncodeArePure
  rintro i s s' t t' (⟨input, rfl⟩ | ⟨p, cap, rfl⟩) - hout hout' h h'
  · cases h.symm.trans (exec_crc16 input s)
    cases h'.symm.trans (exec_crc16 input s')
    exact ⟨⟨_, rfl, rfl⟩, rfl, rfl, rfl⟩
  · obtain ⟨c, o, k, hexec⟩ := exec_encode_answer p cap (length_le_of_exec_encode h) hout
    obtain ⟨c', o', k', hexec'⟩ := exec_encode_answer p cap (length_le_of_exec_encode h') hout'
    cases h.symm.trans hexec
    cases h'.symm.trans hexec'
    exact ⟨⟨_, rfl, rfl⟩, rfl, rfl, rfl⟩

end Sys2Proof.Machine
end

/-! ## Proofs: issued instructions run in order (R3, R27) -/

section
namespace Sys2Proof.Machine

/-- The same state but for the entries issued and not yet executed. -/
def State.withPort (s : State) (es : List Issue) : State := { s with port := es }

/-- The same outcome but for the entries issued and not yet executed; a stop has none. -/
def outcomeWithPort (es : List Issue) : Host.Outcome State Fault Refusal → Host.Outcome State Fault Refusal
  | .next s => .next (s.withPort es)
  | .fault f => .fault f
  | .refused r => .refused r

/-- A run of emissions, ended or failed, with other entries issued. -/
def emissionWithPort (es : List Issue) : Except State (State × Nat) → Except State (State × Nat)
  | .error s => .error (s.withPort es)
  | .ok (s, w) => .ok (s.withPort es, w)

theorem State.emit_withPort (s : State) (es : List Issue) (cap : Nat) (seq : List Byte) (w : Nat) :
    (s.withPort es).emit cap seq w = emissionWithPort es (s.emit cap seq w) := by
  unfold State.emit
  split <;> rfl

theorem State.emitEscaped_withPort (s : State) (es : List Issue) (cap : Nat) (bytes : List Byte) (w : Nat) :
    (s.withPort es).emitEscaped cap bytes w = emissionWithPort es (s.emitEscaped cap bytes w) := by
  induction bytes generalizing s w with
  | nil => rfl
  | cons b rest ih =>
    rw [State.emitEscaped, State.emitEscaped, State.emit_withPort]
    cases s.emit cap (esc b) w with
    | error s' => rfl
    | ok r => exact ih r.1 r.2

theorem State.runChecksum_withPort (s : State) (es : List Issue) (bytes : List Byte) :
    (s.withPort es).runChecksum bytes = (s.runChecksum bytes).withPort es := by
  rw [State.runChecksum_eq, State.runChecksum_eq]
  rfl

theorem State.crcResult_withPort (s : State) (es : List Issue) : (s.withPort es).crcResult = s.crcResult := rfl

theorem State.encodeSteps_withPort (s : State) (es : List Issue) (p : List Byte) (cap : Nat) :
    (s.withPort es).encodeSteps p cap = emissionWithPort es (s.encodeSteps p cap) := by
  rw [State.encodeSteps, State.encodeSteps, State.emitEscaped_withPort]
  cases s.emitEscaped cap p 0 with
  | error s1 => rfl
  | ok r =>
    obtain ⟨s1, w1⟩ := r
    simp only [emissionWithPort, State.runChecksum_withPort, State.emitEscaped_withPort, State.crcResult_withPort]
    cases (s1.runChecksum p).emitEscaped cap (trailer (s1.runChecksum p).crcResult) w1 with
    | error s3 => rfl
    | ok r3 => exact State.emit_withPort r3.1 es cap [termByte] r3.2

theorem State.appended_withPort (s : State) (es : List Issue) (chunk : List Byte) :
    (s.withPort es).appended chunk = (s.appended chunk).withPort es := by
  rw [State.appended_eq, State.appended_eq, State.makeRoom_eq, State.makeRoom_eq]
  rfl

theorem exec_encode_withPort (p : List Byte) (cap : Nat) (s : State) (es : List Issue) :
    exec (.encode p cap) (s.withPort es) = outcomeWithPort es (exec (.encode p cap) s) := by
  change execEncode p cap (s.withPort es) = outcomeWithPort es (execEncode p cap s)
  rcases Nat.lt_or_ge s.maxPacket p.length with hlong | hn
  · rw [execEncode_of_tooLong hlong, execEncode_of_tooLong (s := s.withPort es) hlong]
    rfl
  have hsteps := State.encodeSteps_withPort s es p cap
  cases he : s.encodeSteps p cap with
  | error s' =>
    rw [he] at hsteps
    rw [execEncode_of_error hn he, execEncode_of_error (s := s.withPort es) hn hsteps]
    rfl
  | ok r =>
    rw [he] at hsteps
    rw [execEncode_of_ok hn he, execEncode_of_ok (s := s.withPort es) hn hsteps]
    rfl

theorem exec_feed_withPort (chunk : List Byte) (s : State) (es : List Issue) :
    exec (.feed chunk) (s.withPort es) = outcomeWithPort es (exec (.feed chunk) s) := by
  cases hc : s.constructed with
  | false =>
    have hrefused : refusalOf (.feed chunk) s = some .neverConstructed := if_pos hc
    rw [exec_of_refusal hrefused, exec_of_refusal (s := s.withPort es) hrefused]
    rfl
  | true =>
    have happ := State.appended_withPort s es chunk
    rcases exec_feed_cases chunk hc with ⟨hn, hexec⟩ | ⟨hn, hno, hexec⟩ | ⟨f, rest, hn, hf, hpend, hexec⟩
    · rw [hexec]
      exact execFeed_of_overflow (s := s.withPort es) hc hn
    · rw [hexec, exec_feed_of_no_terminator (s := s.withPort es) hc hn (by rw [happ]; exact hno), happ]
      rfl
    · rw [hexec, exec_feed_of_terminator (s := s.withPort es) hc hn hf (by rw [happ]; exact hpend), happ]
      rfl

/-- No instruction sees or touches the entries issued behind it: the meanings do not read the port. -/
theorem exec_withPort (i : Instr) (s : State) (es : List Issue) :
    exec i (s.withPort es) = outcomeWithPort es (exec i s) := by
  cases i with
  | init => rfl
  | crc16 input =>
    rw [exec_crc16, exec_crc16]
    rfl
  | encode p cap => exact exec_encode_withPort p cap s es
  | feed chunk => exact exec_feed_withPort chunk s es
  | term =>
    change Host.Outcome.next (s.withPort es).endFrame = outcomeWithPort es (.next s.endFrame)
    rw [State.endFrame_eq, State.endFrame_eq]
    rfl
  | escm => rfl
  | lit b =>
    change execLit b (s.withPort es) = outcomeWithPort es (execLit b s)
    unfold execLit
    split <;> rfl

/-- Steps of the machine, on a port that holds the instructions' entries and nothing else. -/
theorem run_withPort_encode (is : List Instr) (s : State) (hp : s.port = []) (hwf : ∀ i ∈ is, i.wellFormed = true) :
    Sys2Proof.core.run is.length (s.withPort (is.map encode)) = execAll is s := by
  induction is generalizing s with
  | nil =>
    have hs : s.withPort [] = s := by rw [State.withPort, ← hp]
    exact congrArg Host.Outcome.next hs
  | cons i rest ih =>
    have hissued : step (s.withPort ((i :: rest).map encode)) = exec i (s.withPort (rest.map encode)) :=
      step_of_issued rfl (decode_encode (hwf i List.mem_cons_self))
    have hstep : Sys2Proof.core.step (s.withPort ((i :: rest).map encode)) =
        outcomeWithPort (rest.map encode) (exec i s) := hissued.trans (exec_withPort i s _)
    have hrest := ih (hwf := fun j hj => hwf j (List.mem_cons_of_mem i hj))
    simp only [List.length_cons, Host.Core.run, hstep, execAll]
    cases hexec : exec i s with
    | next t => exact hrest t ((keptBy_of_exec hexec).port.trans hp)
    | fault f => rfl
    | refused r => rfl

/-- Settles O8: with nothing issued before, the port holds the list's entries. -/
theorem issuedInstructionsRunInOrder : Obligations.IssuedInstructionsRunInOrder := by
  unfold Obligations.IssuedInstructionsRunInOrder
  intro s is hp hwf
  have hissue : s.issue is = s.withPort (is.map encode) := by
    rw [State.issue, State.withPort, hp, List.nil_append]
  rw [hissue]
  exact run_withPort_encode is s hp hwf

end Sys2Proof.Machine
end

/-! ## Proofs: the table and the bit-serial form (R46 to R53) -/

section
namespace Sys2Proof.Machine

/-- Each written-out entry is the one that eight rounds give (R46, R47). -/
theorem tab_eq_tabConstruction (i : Byte) : tab i = tabConstruction i := by
  revert i
  decide

/-- Settles O9: each index is compared. -/
theorem tableIsTheConstruction : Obligations.TableIsTheConstruction := by
  unfold Obligations.TableIsTheConstruction
  exact tab_eq_tabConstruction

/-- One round is linear: the polynomial comes in exactly when one of the two bits shifted out is 1. -/
theorem crcRound_xor (a b : Word) : crcRound (a ^^^ b) = crcRound a ^^^ crcRound b := by
  have hshift : (a ^^^ b) >>> 1 = a >>> 1 ^^^ b >>> 1 := BitVec.ushiftRight_xor_distrib a b 1
  unfold crcRound
  rw [BitVec.getLsbD_xor, hshift]
  cases a.getLsbD 0 <;> cases b.getLsbD 0
  · rfl
  · exact BitVec.xor_assoc _ _ _
  · simp [BitVec.xor_assoc, BitVec.xor_comm poly]
  · simp [BitVec.xor_assoc, BitVec.xor_comm poly]

theorem crcRounds_xor (a b : Word) : crcRounds (a ^^^ b) = crcRounds a ^^^ crcRounds b := by
  simp only [crcRounds, crcRound_xor]

/-- Settles O10: a table entry is eight linear rounds of its index. -/
theorem tableIsLinearOverXor : Obligations.TableIsLinearOverXor := by
  unfold Obligations.TableIsLinearOverXor
  intro a b
  simp only [tab_eq_tabConstruction, tabConstruction, BitVec.setWidth_xor, crcRounds_xor]

/-! ### One byte of either form -/

/-- Rounds that shift out zeros only shift. -/
theorem iterate_crcRound_of_low_zero (n : Nat) (c : Word) (h : ∀ i < n, c.getLsbD i = false) :
    crcRound^[n] c = c >>> n := by
  induction n with
  | zero => simp
  | succ n ih =>
    have hbit : (c >>> n).getLsbD 0 = false := by simpa using h n (Nat.lt_succ_self n)
    rw [Function.iterate_succ_apply', ih fun i hi => h i (Nat.lt_succ_of_lt hi), crcRound, hbit, BitVec.shiftRight_add]
    rfl

/-- A word is its low byte beside its high byte. -/
theorem setWidth_lo8_xor_high (x : Word) : (lo8 x).setWidth 16 ^^^ (x >>> 8) <<< 8 = x := by
  apply BitVec.eq_of_getLsbD_eq
  intro i hi
  rcases Nat.lt_or_ge i 8 with hlow | hhigh
  · simp [lo8, hi, hlow]
  · simp [lo8, hi, Nat.not_lt.2 hhigh, Nat.add_sub_cancel' hhigh]

/-- Eight rounds send the low byte through the table and shift the high byte down. -/
theorem crcRounds_eq_tab (x : Word) : crcRounds x = tab (lo8 x) ^^^ (x >>> 8) := by
  have hrounds : crcRounds ((x >>> 8) <<< 8) = (x >>> 8) <<< 8 >>> 8 :=
    iterate_crcRound_of_low_zero 8 _ fun i hi => by simp [hi]
  have hhigh : (x >>> 8) <<< 8 >>> 8 = x >>> 8 := by
    apply BitVec.eq_of_getLsbD_eq
    intro i hi
    rcases Nat.lt_or_ge (8 + i) 16 with h | h
    · simp [h]
    · simp [Nat.not_lt.2 h, BitVec.getLsbD_of_ge x _ h]
  calc crcRounds x
    _ = crcRounds ((lo8 x).setWidth 16 ^^^ (x >>> 8) <<< 8) := by rw [setWidth_lo8_xor_high]
    _ = tabConstruction (lo8 x) ^^^ crcRounds ((x >>> 8) <<< 8) := crcRounds_xor _ _
    _ = tab (lo8 x) ^^^ (x >>> 8) := by rw [tab_eq_tabConstruction, hrounds, hhigh]

theorem lo8_xor (a b : Word) : lo8 (a ^^^ b) = lo8 a ^^^ lo8 b := BitVec.extractLsb'_xor

theorem lo8_setWidth (b : Byte) : lo8 (b.setWidth 16) = b := by
  apply BitVec.eq_of_getLsbD_eq
  intro i hi
  simp [lo8, hi]
  omega

/-- The step of R48, with the index as an XOR of bytes. -/
theorem crcStep_eq (s : Word) (b : Byte) : crcStep s b = tab (lo8 s ^^^ b) ^^^ (s >>> 8) := by
  have hindex (x : Word) : (x &&& 0x00FF).setWidth 8 = lo8 x := by
    have hmask : (0x00FF : Word).setWidth 8 = BitVec.allOnes 8 := by decide
    rw [BitVec.setWidth_and, hmask, BitVec.and_allOnes]
    apply BitVec.eq_of_getLsbD_eq
    intro i hi
    simp [lo8, hi]
  rw [crcStep, hindex, lo8_xor, lo8_setWidth]

/-- One byte does the same to the state in either form (R53). -/
theorem crcStep_eq_bitSerialStep (s : Word) (b : Byte) : crcStep s b = bitSerialStep s b := by
  have hbyte : (b.setWidth 16) >>> 8 = 0#16 := by
    apply BitVec.eq_of_getLsbD_eq
    intro i hi
    simp
  rw [bitSerialStep, crcRounds_eq_tab, lo8_xor, lo8_setWidth, BitVec.ushiftRight_xor_distrib, hbyte, BitVec.xor_zero,
    crcStep_eq]

theorem crcRun_eq_bitSerialRun (s : Word) (bytes : List Byte) : crcRun s bytes = bitSerialRun s bytes := by
  induction bytes generalizing s with
  | nil => rfl
  | cons b rest ih => rw [crcRun, bitSerialRun, crcStep_eq_bitSerialStep, ih]

/-- Settles O11, by induction on the sequence: each byte does the same to the state. -/
theorem tableFormEqualsBitSerialForm : Obligations.TableFormEqualsBitSerialForm := by
  unfold Obligations.TableFormEqualsBitSerialForm
  exact fun bytes => congrArg (~~~ ·) (crcRun_eq_bitSerialRun seed bytes)

/-! ### The residue -/

theorem crcRun_append (s : Word) (a b : List Byte) : crcRun s (a ++ b) = crcRun (crcRun s a) b := by
  induction a generalizing s with
  | nil => rfl
  | cons x rest ih => exact ih (crcStep s x)

theorem lo8_not (c : Word) : lo8 (~~~ c) = ~~~ lo8 c := BitVec.extractLsb'_not_of_lt (by decide)

theorem hi8_not (c : Word) : hi8 (~~~ c) = ~~~ hi8 c := by
  apply BitVec.eq_of_getLsbD_eq
  intro i hi
  simp [hi8, hi]
  omega

/-- A byte and its complement differ in every bit. -/
theorem byte_xor_not (b : Byte) : b ^^^ ~~~ b = 0xFF := by
  rw [← BitVec.xor_allOnes, ← BitVec.xor_assoc, BitVec.xor_self, BitVec.zero_xor]
  rfl

theorem lo8_ushiftRight (c : Word) : lo8 (c >>> 8) = hi8 c := by
  apply BitVec.eq_of_getLsbD_eq
  intro i hi
  simp [lo8, hi8, hi]

/-- A word shifted down by its 16 bits is zero. -/
theorem ushiftRight_ushiftRight (c : Word) : c >>> 8 >>> 8 = 0#16 := by
  rw [← BitVec.shiftRight_add]
  exact BitVec.ushiftRight_eq_zero (Nat.le_refl 16)

/-- The two bytes of the complement of the state, run from that state, leave the residue whatever the state is: the
state cancels against its complement in both table indices (G5). -/
theorem crcRun_trailer_not (s : Word) : crcRun s (trailer (~~~ s)) = 0xF0B8 := by
  have hfirst : crcStep s (lo8 (~~~ s)) = tab 0xFF ^^^ (s >>> 8) := by
    rw [crcStep_eq, lo8_not, byte_xor_not]
  have hsecond : crcStep (tab 0xFF ^^^ (s >>> 8)) (hi8 (~~~ s)) =
      tab (lo8 (tab 0xFF) ^^^ 0xFF) ^^^ (tab 0xFF >>> 8) := by
    rw [crcStep_eq, lo8_xor, lo8_ushiftRight, hi8_not, BitVec.xor_assoc, byte_xor_not,
      BitVec.ushiftRight_xor_distrib, ushiftRight_ushiftRight, BitVec.xor_zero]
  calc crcRun s (trailer (~~~ s))
    _ = crcStep (crcStep s (lo8 (~~~ s))) (hi8 (~~~ s)) := rfl
    _ = tab (lo8 (tab 0xFF) ^^^ 0xFF) ^^^ (tab 0xFF >>> 8) := by rw [hfirst, hsecond]
    _ = 0xF0B8 := by decide

/-- Settles O12: the trailer is that of the complement of the state which the sequence leaves. -/
theorem checksumResidueIsConstant : Obligations.ChecksumResidueIsConstant := by
  unfold Obligations.ChecksumResidueIsConstant
  intro p
  have hrun : crcRun seed (p ++ trailer (checksum p)) = 0xF0B8 := by
    rw [crcRun_append]
    exact crcRun_trailer_not (crcRun seed p)
  refine ⟨hrun, ?_⟩
  rw [checksum, hrun]
  decide

/-- Settles O14: the whole effect of `CRC16`, and its value on the empty input. -/
theorem crc16ReturnsTheChecksum : Obligations.Crc16ReturnsTheChecksum := by
  unfold Obligations.Crc16ReturnsTheChecksum
  refine ⟨fun input => decode_encode (i := .crc16 input) rfl, exec_crc16, fun s => ?_⟩
  rw [exec_crc16, checksum_nil]
  rfl

end Sys2Proof.Machine
end

/-! ## Proofs: escaped sequences and frames (R34 to R40, R59) -/

section
namespace Sys2Proof.Machine

/-- One byte on the wire takes one byte, and one more when it is escaped (R33). -/
theorem esc_length (b : Byte) : (esc b).length = 1 + [b].count termByte + [b].count escMarker := by
  by_cases hterm : b = termByte
  · subst hterm
    rfl
  by_cases hescm : b = escMarker
  · subst hescm
    rfl
  · rw [esc_of_literal hterm hescm]
    simp [hterm, hescm]

theorem escSeq_length (bytes : List Byte) :
    (escSeq bytes).length = bytes.length + bytes.count termByte + bytes.count escMarker := by
  induction bytes with
  | nil => rfl
  | cons b rest ih =>
    have hsplit x : (b :: rest).count x = [b].count x + rest.count x := by
      rw [← List.count_append, List.singleton_append]
    rw [escSeq, List.length_append, esc_length, ih, hsplit, hsplit, List.length_cons]
    omega

/-- Each marker stands directly before the second byte of an escape pair (R34, R59). -/
def MarkersPaired (bytes : List Byte) : Prop :=
  ∀ i : Nat, bytes[i]? = some escMarker → bytes[i + 1]? = some 0x5E ∨ bytes[i + 1]? = some 0x5D

theorem MarkersPaired.append {a b : List Byte} (ha : MarkersPaired a) (hb : MarkersPaired b) :
    MarkersPaired (a ++ b) := by
  intro i hi
  rcases Nat.lt_or_ge i a.length with hlt | hge
  · rw [List.getElem?_append_left hlt] at hi
    have hnext {x : Byte} (h : a[i + 1]? = some x) : (a ++ b)[i + 1]? = some x := by
      obtain ⟨hlt', -⟩ := List.getElem?_eq_some_iff.1 h
      rw [List.getElem?_append_left hlt', h]
    exact (ha i hi).imp hnext hnext
  · rw [List.getElem?_append_right hge] at hi
    have := hb _ hi
    rwa [List.getElem?_append_right (by omega), show i + 1 - a.length = i - a.length + 1 by omega]

theorem markersPaired_singleton {b : Byte} (h : b ≠ escMarker) : MarkersPaired [b] := by
  intro i hi
  cases i with
  | zero => exact absurd (Option.some.inj hi) h
  | succ i => cases hi

theorem markersPaired_esc (b : Byte) : MarkersPaired (esc b) := by
  by_cases h : b = termByte ∨ b = escMarker
  · rw [esc_of_special h]
    intro i hi
    match i with
    | 0 => rcases h with rfl | rfl <;> decide
    | 1 => rcases h with rfl | rfl <;> exact absurd hi (by decide)
    | i + 2 => cases hi
  · obtain ⟨hterm, hescm⟩ := not_or.1 h
    rw [esc_of_literal hterm hescm]
    exact markersPaired_singleton hescm

theorem markersPaired_escSeq (bytes : List Byte) : MarkersPaired (escSeq bytes) := by
  induction bytes with
  | nil => exact fun i hi => by cases hi
  | cons b rest ih => exact (markersPaired_esc b).append ih

/-- Settles O16: length and pairing by induction on the sequence, byte by byte. -/
theorem escapedSequenceShape : Obligations.EscapedSequenceShape := by
  unfold Obligations.EscapedSequenceShape
  exact fun s => ⟨escSeq_length s, termByte_not_mem_escSeq s, markersPaired_escSeq s⟩

/-! ### Unescaping -/

theorem unesc_escSeq (bytes : List Byte) : unesc (escSeq bytes) = bytes := by
  induction bytes with
  | nil => rfl
  | cons b rest ih => exact (unescFrom_esc b (escSeq rest)).trans (congrArg (b :: ·) ih)

/-- Settles O17: each byte comes out of its own escape, with the flag clear again. -/
theorem unescapeInvertsEscape : Obligations.UnescapeInvertsEscape := by
  unfold Obligations.UnescapeInvertsEscape
  exact unesc_escSeq

/-! #### The walk byte by byte (R38) -/

@[simp] theorem unescFrom_nil (f : Bool) : unescFrom f [] = [] := by
  rw [unescFrom]

@[simp] theorem unescFrom_marker (f : Bool) (rest : List Byte) :
    unescFrom f (escMarker :: rest) = unescFrom true rest :=
  if_pos rfl

theorem unescFrom_other {b : Byte} (f : Bool) (rest : List Byte) (h : b ≠ escMarker) :
    unescFrom f (b :: rest) = (if f then b ^^^ escMask else b) :: unescFrom false rest := by
  cases f <;> simp [unescFrom, h]

theorem unescFrom_length (f : Bool) (bytes : List Byte) :
    (unescFrom f bytes).length + bytes.count escMarker = bytes.length := by
  induction bytes generalizing f with
  | nil => simp
  | cons b rest ih =>
    by_cases hb : b = escMarker
    · subst hb
      rw [unescFrom_marker, List.count_cons_self, List.length_cons, ← ih true, Nat.add_assoc]
    · have hother := ih false
      rw [unescFrom_other f rest hb, List.count_cons_of_ne hb, List.length_cons, List.length_cons]
      omega

/-- Settles O18: the count holds from either value of the flag. -/
theorem unescapeCountsMarkers : Obligations.UnescapeCountsMarkers := by
  unfold Obligations.UnescapeCountsMarkers
  exact fun s => unescFrom_length false s

/-- A marker at the end emits nothing, and the flag it sets is dropped (R39). -/
theorem unescFrom_append_marker (f : Bool) (bytes : List Byte) :
    unescFrom f (bytes ++ [escMarker]) = unescFrom f bytes := by
  induction bytes generalizing f with
  | nil => simp
  | cons b rest ih =>
    by_cases hb : b = escMarker
    · subst hb
      simp [ih]
    · rw [List.cons_append, unescFrom_other _ _ hb, unescFrom_other _ _ hb, ih]

theorem unesc_append_marker (bytes : List Byte) : unesc (bytes ++ [escMarker]) = unesc bytes :=
  unescFrom_append_marker false bytes

/-- Nothing without a terminator unescapes to a sequence and is shorter than the sequence escaped: a terminator or a
marker comes out of a walk only behind a marker. -/
theorem escSeq_unescFrom_length_le (f : Bool) {bytes : List Byte} (h : termByte ∉ bytes) :
    (escSeq (unescFrom f bytes)).length ≤ bytes.length + f.toNat := by
  induction bytes generalizing f with
  | nil => simp [escSeq]
  | cons b rest ih =>
    obtain ⟨hterm, hrest⟩ := not_or.1 (fun hm => h (List.mem_cons.2 hm))
    by_cases hb : b = escMarker
    · subst hb
      have := ih true hrest
      simp only [unescFrom_marker, List.length_cons, Bool.toNat_true] at *
      omega
    · have hih := ih false hrest
      rw [unescFrom_other f rest hb, escSeq, List.length_append, List.length_cons]
      cases f with
      | true =>
        have := esc_length_le_two (b ^^^ escMask)
        simp only [Bool.toNat_true, Bool.toNat_false, if_true] at *
        omega
      | false =>
        have : (esc b).length = 1 := by rw [esc_of_literal (Ne.symm hterm) hb]; rfl
        simp only [Bool.false_eq_true, if_false, Bool.toNat_false] at *
        omega

/-! ### The trailer and the frame -/

theorem trailer_eq_iff (lo hi : Byte) (c : Word) : trailer c = [lo, hi] ↔ joinBytes hi lo = c := by
  constructor
  · rintro ⟨⟩
    exact joinBytes_hi8_lo8 c
  · rintro rfl
    rw [trailer, lo8_joinBytes, hi8_joinBytes]

/-- Settles O20: the two bytes and the word they join to determine each other. -/
theorem trailerIsLowThenHigh : Obligations.TrailerIsLowThenHigh := by
  unfold Obligations.TrailerIsLowThenHigh
  refine ⟨fun c => rfl, trailer_eq_iff, fun p => ?_⟩
  rw [frame, List.append_assoc, List.append_assoc]
  rfl

/-- Settles O21: the frame is an escaped sequence of `n + 2` bytes and the terminator. -/
theorem frameLength : Obligations.FrameLength := by
  unfold Obligations.FrameLength
  intro p
  have hlen : (frame p).length = p.length +
      ((p ++ trailer (checksum p)).count termByte + (p ++ trailer (checksum p)).count escMarker) + 3 := by
    have htrailer : (trailer (checksum p)).length = 2 := rfl
    rw [frame_eq_escSeq, List.length_append, escSeq_length, List.length_append, htrailer, List.length_singleton]
    omega
  refine ⟨hlen, ?_, frame_length_le_worstCase p⟩
  omega

/-- Settles O22: before the terminator the frame is an escaped sequence. -/
theorem frameGuarantees : Obligations.FrameGuarantees := by
  unfold Obligations.FrameGuarantees
  refine fun p => ⟨⟨_, frame_eq_escSeq p, termByte_not_mem_escSeq _, unesc_escSeq _⟩, ?_⟩
  rw [frame_eq_escSeq]
  exact (markersPaired_escSeq _).append (markersPaired_singleton (by decide))

end Sys2Proof.Machine
end

/-! ## Proofs: what `ENCODE` stores (R57, R58, R104) -/

section
namespace Sys2Proof.Machine

/-- Settles O23: the encoder's steps when the frame fits, read back from `OUT`. -/
theorem encodeBuildsTheFrame : Obligations.EncodeBuildsTheFrame := by
  unfold Obligations.EncodeBuildsTheFrame
  exact fun p cap s => exec_encode_of_fits

/-- Settles O25: every outcome keeps `OUT` from the capacity on, and the fitting one stores the frame from index 0. -/
theorem encodeFrame : Obligations.EncodeFrame := by
  unfold Obligations.EncodeFrame
  intro p cap s t hwf h
  have hn := length_le_of_exec_encode h
  obtain ⟨c, o, k, r, hexec, -, hkeep⟩ := exec_encode_effect p cap hn
  cases h.symm.trans hexec
  refine ⟨rfl, rfl, rfl, rfl, rfl, rfl, rfl, hkeep, fun hfit => ?_⟩
  have hout : o = s.out.writeBytes 0 (frame p) :=
    congrArg State.out (Host.Outcome.next.inj (hexec.symm.trans (exec_encode_of_fits hn hfit hwf)))
  subst hout
  refine ⟨fun a ha => ?_, fun a ha => ?_⟩
  · simpa using Memory.read_writeBytes_inside (a := 0) (frame p) hwf ha
  · exact Memory.read_writeBytes_outside _ _ (.inr (by simpa using ha))

end Sys2Proof.Machine
end

/-! ## Proofs: the byte classes (R37, R38) -/

section
namespace Sys2Proof.Machine

theorem exec_lit_of_literal {b : Byte} (s : State) (h1 : b ≠ termByte) (h2 : b ≠ escMarker) :
    exec (.lit b) s = .next (s.walkClass (.lit b)) :=
  if_pos ((isLiteral_iff b).2 ⟨h1, h2⟩)

theorem exec_term (s : State) :
    exec .term s =
      .next { s with
        crcs := verdictCrcs s.maxPacket s.u s.crcs
        escf := false
        u := []
        returned := s.returned ++ [judgeUnescaped s.maxPacket s.u] } :=
  congrArg Host.Outcome.next (State.endFrame_eq s)

/-- Settles O47: the class emits nothing and sets the flag. -/
theorem escmSetsTheFlag : Obligations.EscmSetsTheFlag := by
  unfold Obligations.EscmSetsTheFlag
  intro s
  have hwalk : s.walkClass .escm = { s with escf := true } := by
    rw [State.walkClass, emitted, List.append_nil]
    rfl
  exact congrArg Host.Outcome.next hwalk

/-- Settles O48: a literal is walked, and the two other values are refused. -/
theorem litEmitsItsByte : Obligations.LitEmitsItsByte := by
  unfold Obligations.LitEmitsItsByte
  exact fun b s => ⟨exec_lit_of_literal s, fun h =>
    exec_eq_refused_iff.2 ((refusalOf_eq_some_iff _ _ _).2 (.inr (.inr ⟨b, rfl, h, rfl⟩)))⟩

/-- Settles O49: the end of a frame, whatever was walked. -/
theorem termJudgesTheWalkedFrame : Obligations.TermJudgesTheWalkedFrame := by
  unfold Obligations.TermJudgesTheWalkedFrame
  exact fun s => ⟨_, exec_term s⟩

/-- A byte that is no terminator, taken as an instruction, is one walked byte (R38). -/
theorem exec_classify {b : Byte} (s : State) (h : b ≠ termByte) :
    exec (classify b).toInstr s = .next (s.walkByte b) := by
  by_cases hb : b = escMarker
  · subst hb
    rfl
  · rw [State.walkByte, classify_lit h hb]
    exact exec_lit_of_literal s h hb

/-- The classes of a frame's bytes, executed one after another, are the walk over them; the rest runs from there. -/
theorem execAll_classify_append {f : List Byte} (is : List Instr) (s : State) (hf : termByte ∉ f) :
    execAll ((f.map fun b => (classify b).toInstr) ++ is) s = execAll is (f.foldl State.walkByte s) := by
  induction f generalizing s with
  | nil => rfl
  | cons b rest ih =>
    obtain ⟨hb, hrest⟩ := not_or.1 (fun hm => hf (List.mem_cons.2 hm))
    rw [List.map_cons, List.cons_append, execAll_cons_of_next (exec_classify s (Ne.symm hb)), ih _ hrest]
    rfl

/-- Settles O50: the classes walk the frame's bytes, and the terminator judges what the walk emitted. -/
theorem classByClassWalkGivesTheVerdict : Obligations.ClassByClassWalkGivesTheVerdict := by
  unfold Obligations.ClassByClassWalkGivesTheVerdict
  intro f s hf hflag hu
  have hwalked : (f.foldl State.walkByte s).u = unesc f := by
    rw [State.foldl_walkByte f hf, hflag, hu]
    rfl
  have hwalk := State.foldl_walkByte_eq f s
  rw [hwalked] at hwalk
  rw [List.map_append, execAll_classify_append _ _ hf, hwalk]
  exact ⟨_, execAll_cons_of_next (exec_term _)⟩

end Sys2Proof.Machine
end

/-! ## Proofs: the verdict on a frame (R67 to R70) -/

section
namespace Sys2Proof.Machine

theorem judge_of_large {maxPacket : Nat} {f : List Byte} (h : maxPacket < (unesc f).length) :
    judge maxPacket f = .err .packetTooLarge :=
  if_pos h

theorem judge_of_short {maxPacket : Nat} {f : List Byte} (hparam : 3 ≤ maxPacket) (h : (unesc f).length ≤ 2) :
    judge maxPacket f = .err .packetTooShort := by
  rw [judge, judgeUnescaped, if_neg (by omega), if_pos h]

/-- A payload and two bytes after it: the two bytes are compared with the trailer (R70). -/
theorem judge_of_payload {maxPacket : Nat} {f p : List Byte} {lo hi : Byte} (hu : unesc f = p ++ [lo, hi])
    (h1 : 1 ≤ p.length) (h2 : p.length + 2 ≤ maxPacket) :
    judge maxPacket f = if [lo, hi] = trailer (checksum p) then .okPayload p else .err .checksumMismatch := by
  have hlen : (p ++ [lo, hi]).length = p.length + 2 := List.length_append
  rw [judge, hu, judgeUnescaped, hlen, if_neg (by omega), if_neg (by omega)]
  simp

/-- A delivered payload stands in the frame before its own trailer, and within the two length limits. -/
theorem unesc_of_judge_ok {maxPacket : Nat} {f p : List Byte} (h : judge maxPacket f = .okPayload p) :
    unesc f = p ++ trailer (checksum p) ∧ 1 ≤ p.length ∧ p.length + 2 ≤ maxPacket := by
  unfold judge judgeUnescaped at h
  split at h
  · cases h
  next hsmall =>
    split at h
    · cases h
    next hlong =>
      dsimp only at h
      split at h
      next htrailer =>
        cases h
        refine ⟨by rw [← htrailer, List.take_append_drop], ?_, ?_⟩ <;> rw [List.length_take] <;> omega
      · cases h

theorem verdictCrcs_of_large {maxPacket : Nat} {u : List Byte} (c : Word) (h : maxPacket < u.length) :
    verdictCrcs maxPacket u c = c :=
  if_pos (.inl h)

theorem verdictCrcs_of_short {u : List Byte} (maxPacket : Nat) (c : Word) (h : u.length ≤ 2) :
    verdictCrcs maxPacket u c = c :=
  if_pos (.inr h)

/-- The checksum is computed over what stands before the last two bytes (R70). -/
theorem verdictCrcs_of_payload {maxPacket : Nat} {p : List Byte} {lo hi : Byte} (c : Word) (h1 : 1 ≤ p.length)
    (h2 : p.length + 2 ≤ maxPacket) : verdictCrcs maxPacket (p ++ [lo, hi]) c = crcRun seed p := by
  have hlen : (p ++ [lo, hi]).length = p.length + 2 := List.length_append
  rw [verdictCrcs, hlen, if_neg (by omega)]
  simp

end Sys2Proof.Machine
end

/-! ## Proofs: `FEED` by the first terminator (R65 to R70, R104) -/

section
namespace Sys2Proof.Machine

/-- Settles O30: the boundary search looks through the pending bytes kept and the chunk. -/
theorem feedWithoutTerminator : Obligations.FeedWithoutTerminator := by
  unfold Obligations.FeedWithoutTerminator
  intro chunk s hc hn hwf hno
  have hpend := State.pend_appended chunk hwf
  rw [← hpend] at hno
  exact ⟨exec_feed_of_no_terminator hc hn hno, hpend⟩

/-- A completed frame is judged, and the bytes behind it stay pending (R66 to R70). -/
theorem exec_feed_of_completes {chunk f rest : List Byte} {s : State} (h : s.completes chunk f rest) :
    exec (.feed chunk) s = .next ((s.appended chunk).judged f rest) ∧
      ((s.appended chunk).judged f rest).pend = rest := by
  obtain ⟨hc, hn, hwf, hf, hq⟩ := h
  rw [← State.pend_appended chunk hwf] at hq
  exact ⟨exec_feed_of_terminator hc hn hf hq, State.judged_pend f rest (State.appended_buf_wf chunk hwf)⟩

/-- The whole next state of a `FEED` that completes a frame, by the verdict and what it leaves in `CRCS`. -/
theorem exec_feed_of_verdict {chunk f rest : List Byte} {s : State} {c : Word} {r : Result}
    (h : s.completes chunk f rest) (hr : judge s.maxPacket f = r)
    (hc : verdictCrcs s.maxPacket (unesc f) (s.appended chunk).crcs = c) :
    ∃ t, exec (.feed chunk) s = .next t ∧ t.pend = rest ∧
      t = { (s.appended chunk).consumed rest with
              crcs := c, escf := false, u := [], returned := s.returned ++ [r] } := by
  obtain ⟨hexec, hpend⟩ := exec_feed_of_completes h
  refine ⟨_, hexec, hpend, ?_⟩
  rw [State.judged, State.appended_maxPacket, State.appended_returned, hr, hc]

/-- Settles O31: the size limit comes first, and no checksum is run. -/
theorem feedPacketTooLarge : Obligations.FeedPacketTooLarge := by
  unfold Obligations.FeedPacketTooLarge
  exact fun chunk f rest s h hlarge =>
    exec_feed_of_verdict h (judge_of_large hlarge) (verdictCrcs_of_large (s.appended chunk).crcs hlarge)

/-- Settles O32: two bytes are within the size limit, and no checksum is run. -/
theorem feedPacketTooShort : Obligations.FeedPacketTooShort := by
  unfold Obligations.FeedPacketTooShort
  exact fun chunk f rest s h hparam hshort =>
    exec_feed_of_verdict h (judge_of_short hparam hshort) (verdictCrcs_of_short _ (s.appended chunk).crcs hshort)

/-- Settles O33: a difference in either byte makes the two bytes another trailer. -/
theorem feedChecksumMismatch : Obligations.FeedChecksumMismatch := by
  unfold Obligations.FeedChecksumMismatch
  intro chunk f rest p lo hi s h hu h1 h2 hdiff
  have hne : [lo, hi] ≠ trailer (checksum p) := fun heq => by
    rcases hdiff with hlo | hhi
    · exact hlo (List.cons.inj heq).1
    · exact hhi (List.cons.inj (List.cons.inj heq).2).1
  refine exec_feed_of_verdict h ((judge_of_payload hu h1 h2).trans (if_neg hne)) ?_
  rw [hu]
  exact verdictCrcs_of_payload _ h1 h2

/-- Settles O34: the two bytes are the trailer. -/
theorem feedDeliversThePayload : Obligations.FeedDeliversThePayload := by
  unfold Obligations.FeedDeliversThePayload
  intro chunk f rest p s h hu h1 h2
  refine exec_feed_of_verdict h ((judge_of_payload hu h1 h2).trans (if_pos rfl)) ?_
  rw [hu]
  exact verdictCrcs_of_payload _ h1 h2

/-- Settles O19: a marker is one branch of the walk, and a boundary directly behind a marker leaves it dangling. -/
theorem irregularEscapesAreAccepted : Obligations.IrregularEscapesAreAccepted := by
  unfold Obligations.IrregularEscapesAreAccepted
  refine ⟨fun f b _ hb _ => ?_, fun f _ => ⟨?_, unesc_append_marker f⟩, ?_⟩
  · exact (unescFrom_marker false (b :: f)).trans (unescFrom_other true f hb)
  · exact (unescFrom_marker false _).trans ((unescFrom_marker true f).trans (unescFrom_marker false f).symm)
  · intro chunk f rest s hc hwf hn hf hq
    have hcompletes : s.completes chunk (f ++ [escMarker]) rest := by
      refine ⟨hc, hn, hwf, ?_, by rw [hq, List.append_assoc]; rfl⟩
      simpa using ⟨hf, by decide⟩
    have hjudge : judge s.maxPacket (f ++ [escMarker]) = judge s.maxPacket f := by
      rw [judge, judge, unesc_append_marker]
    obtain ⟨hexec, hpend⟩ := exec_feed_of_completes hcompletes
    exact ⟨_, hexec, hpend, by rw [State.judged_returned, State.appended_returned, State.appended_maxPacket, hjudge]⟩

/-- The append stores to its own indices only (R64, R104). -/
theorem State.appended_read_outside (s : State) (chunk : List Byte) {a : Nat}
    (h : a < (s.makeRoom chunk.length).len ∨ (s.makeRoom chunk.length).len + chunk.length ≤ a) :
    (s.appended chunk).buf.read a = s.buf.read a := by
  rw [State.appended_buf]
  exact Memory.read_writeBytes_outside _ _ h

/-- The consume stores to the indices of the remainder only (R68, R104). -/
theorem State.judged_read_of_le (s : State) (f : List Byte) {rest : List Byte} {a : Nat} (h : rest.length ≤ a) :
    (s.judged f rest).buf.read a = s.buf.read a := by
  rw [State.judged_buf]
  exact Memory.read_writeBytes_outside _ _ (.inr (by omega))

/-- Settles O36, by the three outcomes of `FEED`. -/
theorem feedFrame : Obligations.FeedFrame := by
  unfold Obligations.FeedFrame
  intro chunk s t h
  rcases exec_feed_cases chunk (constructed_of_exec_feed h) with
    ⟨hn, hexec⟩ | ⟨hn, -, hexec⟩ | ⟨f, rest, hn, -, hpend, hexec⟩ <;> cases h.symm.trans hexec
  · exact ⟨rfl, rfl, rfl, rfl, rfl, fun _ _ => rfl, fun hfit => absurd hn (Nat.not_lt.2 hfit)⟩
  · exact ⟨by simp, by simp, by simp, by simp, by simp, fun hlong => absurd hlong (Nat.not_lt.2 hn),
      fun _ a ha _ => s.appended_read_outside chunk ha⟩
  · have hmem : termByte ∈ (s.appended chunk).pend := by simp [hpend]
    refine ⟨by simp, by simp, by simp, by simp, by simp, fun hlong => absurd hlong (Nat.not_lt.2 hn), ?_⟩
    rintro - a ha (hno | hrest)
    · exact absurd hmem hno
    · exact ((s.appended chunk).judged_read_of_le f hrest).trans (s.appended_read_outside chunk ha)

/-- The append of the empty chunk changes nothing (R45, R63). -/
theorem State.appended_nil {s : State} (h : s.len ≤ s.bufCap) : s.appended [] = s := by
  rw [State.appended_eq, State.makeRoom_of_fits h]
  rfl

/-- Settles O37: the empty chunk leaves the pending bytes as they are for the boundary search. -/
theorem pollNeverDiscards : Obligations.PollNeverDiscards := by
  unfold Obligations.PollNeverDiscards
  intro s hc hlen
  have happ := State.appended_nil hlen
  refine ⟨fun hno => ?_, fun f rest hwf hf hpend => ?_⟩
  · rw [poll, exec_feed_of_no_terminator hc (Nat.zero_le _) (by rwa [happ]), happ]
  · rw [poll, exec_feed_of_terminator hc (Nat.zero_le _) hf (by rw [happ, hpend]), happ]
    exact ⟨_, rfl, State.judged_pend f rest hwf, rfl⟩

/-- Settles O38: of the three outcomes only a verdict delivers, within its length limits. -/
theorem deliveredPayloadLength : Obligations.DeliveredPayloadLength := by
  unfold Obligations.DeliveredPayloadLength
  intro chunk p s t h hret
  rcases exec_feed_cases chunk (constructed_of_exec_feed h) with
    ⟨-, hexec⟩ | ⟨-, -, hexec⟩ | ⟨f, rest, -, -, -, hexec⟩ <;> cases h.symm.trans hexec
  · simp at hret
  · simp at hret
  · have hjudge : judge s.maxPacket f = .okPayload p := by simpa using hret
    exact (unesc_of_judge_ok hjudge).2

end Sys2Proof.Machine
end

/-! ## Proofs: streams of chunks (R72, R76, R99) -/

section
namespace Sys2Proof.Machine

/-- A constructed instance with this `MAX_PACKET` and these bytes pending, whatever the rest of its state is. -/
structure State.Holds (s : State) (maxPacket : Nat) (q : List Byte) : Prop where
  maxPacket_eq : s.maxPacket = maxPacket
  constructed : s.constructed = true
  buf_wf : s.buf.wf = true
  pend_eq : s.pend = q

theorem State.holds_of_fresh {s : State} (h : s.fresh) : s.Holds s.maxPacket [] := by
  obtain ⟨hc, hwf, hpend⟩ := h
  exact ⟨rfl, hc, hwf, hpend⟩

/-- Such an instance goes through a chunk as the pure function does (R75). -/
theorem State.Holds.exec_feed {s : State} {maxPacket : Nat} {q : List Byte} (h : s.Holds maxPacket q)
    (chunk : List Byte) :
    ∃ t, exec (.feed chunk) s = .next t ∧ t.Holds maxPacket (feedPure maxPacket q chunk).1 ∧
      t.returned = s.returned ++ [(feedPure maxPacket q chunk).2] := by
  obtain ⟨t, hexec, hpend, hret⟩ := exec_feed_refines chunk h.constructed h.buf_wf
  have hkept := keptBy_of_exec hexec
  rw [h.maxPacket_eq, h.pend_eq] at hpend hret
  exact ⟨t, hexec, ⟨hkept.maxPacket.trans h.maxPacket_eq, hkept.constructed h.constructed,
    buf_wf_of_exec_feed h.buf_wf hexec, hpend⟩, hret⟩

/-- The pure function over a sequence of chunks: the bytes pending at the end, and a result for each chunk. -/
def feedPureAll (maxPacket : Nat) : List Byte → List (List Byte) → List Byte × List Result
  | q, [] => (q, [])
  | q, chunk :: rest =>
    ((feedPureAll maxPacket (feedPure maxPacket q chunk).1 rest).1,
      (feedPure maxPacket q chunk).2 :: (feedPureAll maxPacket (feedPure maxPacket q chunk).1 rest).2)

theorem State.Holds.execAll_feeds {s : State} {maxPacket : Nat} {q : List Byte} (h : s.Holds maxPacket q)
    (chunks : List (List Byte)) :
    ∃ t, execAll (chunks.map Instr.feed) s = .next t ∧ t.Holds maxPacket (feedPureAll maxPacket q chunks).1 ∧
      t.returned = s.returned ++ (feedPureAll maxPacket q chunks).2 := by
  induction chunks generalizing s q with
  | nil => exact ⟨s, rfl, h, by simp [feedPureAll]⟩
  | cons chunk rest ih =>
    obtain ⟨t, hexec, ht, hret⟩ := h.exec_feed chunk
    obtain ⟨t', hall, ht', hret'⟩ := ih ht
    refine ⟨t', (execAll_cons_of_next hexec).trans hall, ht', ?_⟩
    rw [hret', hret, List.append_assoc]
    rfl

/-- The form in which the statements on streams ask for it: from an instance that holds `q`, the pure function's
pending bytes and results. -/
theorem State.Holds.execAll_feeds_of_eq {s : State} {maxPacket : Nat} {q q' : List Byte} {chunks : List (List Byte)}
    {rs : List Result} (h : s.Holds maxPacket q) (hpure : feedPureAll maxPacket q chunks = (q', rs)) :
    ∃ t, execAll (chunks.map Instr.feed) s = .next t ∧ t.pend = q' ∧ t.returned = s.returned ++ rs := by
  obtain ⟨t, hall, ht, hret⟩ := h.execAll_feeds chunks
  rw [hpure] at ht hret
  exact ⟨t, hall, ht.pend_eq, hret⟩

/-! ### One frame -/

theorem pendingAfterAppend_of_fits {maxPacket : Nat} {q chunk : List Byte}
    (h : q.length + chunk.length ≤ 2 * maxPacket) : pendingAfterAppend maxPacket q chunk = q ++ chunk := by
  rw [pendingAfterAppend, if_neg (Nat.not_lt.2 h)]

/-- Pending bytes and a chunk that fit together and hold a frame: the frame's verdict, and the bytes behind it. -/
theorem feedPure_of_fits {maxPacket : Nat} {q chunk f rest : List Byte} (hf : termByte ∉ f)
    (h : q ++ chunk = f ++ termByte :: rest) (hfit : (q ++ chunk).length ≤ 2 * maxPacket) :
    feedPure maxPacket q chunk = (rest, judge maxPacket f) := by
  rw [List.length_append] at hfit
  exact feedPure_of_terminator (by omega) hf ((pendingAfterAppend_of_fits hfit).trans h)

/-- Pending bytes and a chunk that fit together and hold no terminator: all of them are retained. -/
theorem feedPure_of_fits_no_terminator {maxPacket : Nat} {q chunk : List Byte} (h : termByte ∉ q ++ chunk)
    (hfit : (q ++ chunk).length ≤ 2 * maxPacket) : feedPure maxPacket q chunk = (q ++ chunk, .noFrame) := by
  rw [List.length_append] at hfit
  have hq := pendingAfterAppend_of_fits hfit
  rw [← hq] at h ⊢
  exact feedPure_of_no_terminator (by omega) h

/-- The verdict on an escaped payload with any trailer (R70). -/
theorem judge_escSeq_trailer {maxPacket : Nat} {p : List Byte} (c : Word) (h1 : 1 ≤ p.length)
    (h2 : p.length + 2 ≤ maxPacket) :
    judge maxPacket (escSeq (p ++ trailer c)) =
      if trailer c = trailer (checksum p) then .okPayload p else .err .checksumMismatch :=
  judge_of_payload (unesc_escSeq _) h1 h2

/-- A frame that stands complete in the pending bytes and the chunk, with nothing behind it, delivers its payload. -/
theorem feedPure_of_frame {maxPacket : Nat} {p q chunk : List Byte} (hp : deliverable maxPacket p)
    (h : q ++ chunk = frame p) : feedPure maxPacket q chunk = ([], .okPayload p) := by
  obtain ⟨h1, h2, hfit⟩ := hp
  rw [← h] at hfit
  rw [feedPure_of_fits (termByte_not_mem_escSeq _) (h.trans (frame_eq_escSeq p)) hfit, judge_escSeq_trailer _ h1 h2,
    if_pos rfl]

/-- Settles O39: with nothing pending the chunk is the whole frame. -/
theorem roundTripDeliversThePayload : Obligations.RoundTripDeliversThePayload := by
  unfold Obligations.RoundTripDeliversThePayload
  intro p s hs hp
  obtain ⟨t, hexec, ht, hret⟩ := (State.holds_of_fresh hs).exec_feed (frame p)
  rw [feedPure_of_frame hp (List.nil_append _)] at ht hret
  exact ⟨t, hexec, ht.pend_eq, hret⟩

/-- Settles O40: `INIT` leaves a fresh instance with nothing pending, and the frame is fed to it. -/
theorem unescapeAndValidateInvertsEncode : Obligations.UnescapeAndValidateInvertsEncode := by
  unfold Obligations.UnescapeAndValidateInvertsEncode
  intro maxPacket p hp
  have hinit : ((freshInstance maxPacket).applyReset.respond .ok).Holds maxPacket [] := ⟨rfl, rfl, rfl, rfl⟩
  obtain ⟨t, hexec, -, hret⟩ := hinit.exec_feed (frame p)
  rw [feedPure_of_frame hp (List.nil_append _)] at hret
  have hall : execAll [.init, .feed (frame p)] (freshInstance maxPacket) = .next t := by
    rw [execAll_cons_of_next (exec_init _), execAll_cons_of_next hexec]
    rfl
  simp only [unescapeAndValidate, hall, hret, List.getLast?_concat]

/-- What comes before the last bytes of a frame holds no terminator. -/
theorem not_mem_of_append_eq_frame {p a b : List Byte} (h : a ++ b = frame p) (hb : b ≠ []) : termByte ∉ a := by
  have hbody : a ++ b.dropLast = escSeq (p ++ trailer (checksum p)) := by
    rw [← List.dropLast_append_of_ne_nil hb, h, frame_eq_escSeq, List.dropLast_concat]
  exact fun hmem => termByte_not_mem_escSeq _ (hbody ▸ List.mem_append_left _ hmem)

/-- The rest of a frame in pieces, behind the bytes of it already pending. -/
theorem feedPureAll_of_frame {maxPacket : Nat} {p : List Byte} (hp : deliverable maxPacket p)
    (pieces : List (List Byte)) {q last : List Byte} (h : q ++ (pieces.flatten ++ last) = frame p) (hlast : last ≠ []) :
    feedPureAll maxPacket q (pieces ++ [last]) =
      ([], List.replicate pieces.length .noFrame ++ [.okPayload p]) := by
  induction pieces generalizing q with
  | nil =>
    have hframe : q ++ last = frame p := h
    rw [List.nil_append, feedPureAll, feedPure_of_frame hp hframe]
    rfl
  | cons piece rest ih =>
    have hassoc : (q ++ piece) ++ (rest.flatten ++ last) = frame p := by
      simpa using h
    have hno : termByte ∉ q ++ piece := not_mem_of_append_eq_frame hassoc (by simp [hlast])
    have hfit : (q ++ piece).length ≤ 2 * maxPacket := by
      obtain ⟨-, -, hcap⟩ := hp
      rw [← hassoc, List.length_append] at hcap
      omega
    rw [List.cons_append, feedPureAll, feedPure_of_fits_no_terminator hno hfit, ih hassoc]
    rfl

/-- Settles O41, by induction on the pieces: each but the last leaves a terminator still to come. -/
theorem fragmentationInvariance : Obligations.FragmentationInvariance := by
  unfold Obligations.FragmentationInvariance
  exact fun p pieces last s hs hp h hlast =>
    (State.holds_of_fresh hs).execAll_feeds_of_eq (feedPureAll_of_frame hp pieces h hlast)

theorem trailer_injective : Function.Injective trailer := by
  intro c c' h
  rw [← joinBytes_hi8_lo8 c']
  exact ((trailer_eq_iff _ _ c).1 h).symm

/-- Settles O42: another word has another trailer. -/
theorem wrongTrailerIsRejected : Obligations.WrongTrailerIsRejected := by
  unfold Obligations.WrongTrailerIsRejected
  intro p e s hs h1 h2 he hfit
  have hne : trailer (checksum p ^^^ e) ≠ trailer (checksum p) := fun h => he (by simpa using trailer_injective h)
  have hbody : [] ++ frameWithTrailer p (checksum p ^^^ e) =
      escSeq (p ++ trailer (checksum p ^^^ e)) ++ termByte :: [] := rfl
  obtain ⟨t, hexec, ht, hret⟩ := (State.holds_of_fresh hs).exec_feed (frameWithTrailer p (checksum p ^^^ e))
  rw [feedPure_of_fits (termByte_not_mem_escSeq _) hbody hfit, judge_escSeq_trailer _ h1 h2,
    if_neg hne] at ht hret
  exact ⟨t, hexec, ht.pend_eq, hret⟩

/-! ### A good frame behind something else -/

/-- Settles O43: the good frame is what stays pending, and the `POLL` appends nothing to it. -/
theorem goodFrameAfterABadOneIsDelivered : Obligations.GoodFrameAfterABadOneIsDelivered := by
  unfold Obligations.GoodFrameAfterABadOneIsDelivered
  intro chunk f p k s h hp hbad
  obtain ⟨hc, hn, hwf, hf, hq⟩ := h
  have hs : s.Holds s.maxPacket s.pend := ⟨rfl, hc, hwf, rfl⟩
  refine hs.execAll_feeds_of_eq (chunks := [chunk, []]) ?_
  rw [feedPureAll, feedPure_of_terminator hn hf hq, feedPureAll, feedPure_of_frame hp (List.append_nil _), hbad]
  rfl

/-- Settles O44: the rejected chunk leaves nothing pending. -/
theorem frameAfterTooMuchDataIsDelivered : Obligations.FrameAfterTooMuchDataIsDelivered := by
  unfold Obligations.FrameAfterTooMuchDataIsDelivered
  intro chunk p s hs hn hp
  refine (State.holds_of_fresh hs).execAll_feeds_of_eq (chunks := [chunk, frame p]) ?_
  rw [feedPureAll, feedPure_of_overflow hn, feedPureAll, feedPure_of_frame hp (List.nil_append _)]
  rfl

/-! ### Frames longer than the buffer -/

/-- A delivered payload's frame is no longer than the bytes it was read from, which fit the buffer. -/
theorem frame_length_le_of_delivered {maxPacket : Nat} {q chunk p : List Byte}
    (h : (feedPure maxPacket q chunk).2 = .okPayload p) : (frame p).length ≤ 2 * maxPacket := by
  rcases Nat.lt_or_ge (2 * maxPacket) chunk.length with hn | hn
  · rw [feedPure_of_overflow hn] at h
    cases h
  by_cases hmem : termByte ∈ pendingAfterAppend maxPacket q chunk
  · obtain ⟨f, rest, hpend, hf⟩ := List.eq_append_cons_of_mem hmem
    rw [feedPure_of_terminator hn hf hpend] at h
    obtain ⟨hu, -, -⟩ := unesc_of_judge_ok h
    have hshortest : (escSeq (unesc f)).length ≤ f.length + 0 := escSeq_unescFrom_length_le false hf
    have hcap : (pendingAfterAppend maxPacket q chunk).length ≤ 2 * maxPacket := by
      rw [pendingAfterAppend, List.length_append]
      split
      · exact (Nat.zero_add _).trans_le hn
      · omega
    rw [hpend, List.length_append, List.length_cons] at hcap
    rw [frame_eq_escSeq, ← hu, List.length_append, List.length_singleton]
    omega
  · rw [feedPure_of_no_terminator hn hmem] at h
    cases h

/-- Each result of a sequence of chunks is the pure function's on some pending bytes. -/
theorem exists_feedPure_of_mem {maxPacket : Nat} {chunks : List (List Byte)} {q : List Byte} {r : Result}
    (h : r ∈ (feedPureAll maxPacket q chunks).2) : ∃ q' chunk, (feedPure maxPacket q' chunk).2 = r := by
  induction chunks generalizing q with
  | nil => cases h
  | cons chunk rest ih =>
    rcases List.mem_cons.1 h with rfl | hrest
    · exact ⟨q, chunk, rfl⟩
    · exact ih hrest

/-- Settles O46: the payload could be delivered only from bytes that do not fit the buffer, in whatever pieces. -/
theorem frameLongerThanTheBufferIsNeverDelivered : Obligations.FrameLongerThanTheBufferIsNeverDelivered := by
  unfold Obligations.FrameLongerThanTheBufferIsNeverDelivered
  intro p pieces s hs _ hlong _
  obtain ⟨t, hall, -, hret⟩ := (State.holds_of_fresh hs).execAll_feeds pieces
  refine ⟨t, _, hall, hret, fun hmem => ?_⟩
  obtain ⟨q, chunk, hfeed⟩ := exists_feedPure_of_mem hmem
  exact absurd (frame_length_le_of_delivered hfeed) (Nat.not_le.2 hlong)

/-! ### `DRAIN` -/

/-- Before the first terminator stands the first frame, and behind it those of the rest (R32). -/
theorem splitFrames_append {f : List Byte} (rest : List Byte) (hf : termByte ∉ f) :
    splitFrames (f ++ termByte :: rest) = (f :: (splitFrames rest).1, (splitFrames rest).2) := by
  induction f with
  | nil => exact if_pos rfl
  | cons b f ih =>
    obtain ⟨hb, hf'⟩ := not_or.1 (fun hm => hf (List.mem_cons.2 hm))
    rw [List.cons_append, splitFrames, if_neg (Ne.symm hb), ih hf']

theorem splitFrames_of_not_mem {q : List Byte} (h : termByte ∉ q) : splitFrames q = ([], q) := by
  induction q with
  | nil => rfl
  | cons b rest ih =>
    obtain ⟨hb, hrest⟩ := not_or.1 (fun hm => h (List.mem_cons.2 hm))
    rw [splitFrames, if_neg (Ne.symm hb), ih hrest]

theorem drainAtMost_of_noFrame {n : Nat} {s t : State} (h : exec poll s = .next t)
    (hr : t.returned = s.returned ++ [.noFrame]) : drainAtMost (n + 1) s = .next t := by
  simp only [drainAtMost, h, hr, List.getLast?_concat, if_true]

theorem drainAtMost_of_result {n : Nat} {s t : State} {r : Result} (h : exec poll s = .next t)
    (hret : t.returned = s.returned ++ [r]) (hr : r ≠ .noFrame) : drainAtMost (n + 1) s = drainAtMost n t := by
  simp only [drainAtMost, h, hret, List.getLast?_concat, Option.some.injEq, if_neg hr]

theorem judge_ne_noFrame (maxPacket : Nat) (f : List Byte) : judge maxPacket f ≠ .noFrame := by
  rcases judge_cases maxPacket f with ⟨p, h⟩ | h | h | h <;> simp [h]

/-- `DRAIN` by the number of terminators pending: with none the `POLL` ends it, and every other one takes a frame. -/
theorem State.Holds.drains {maxPacket n : Nat} {q : List Byte} {s : State} (h : s.Holds maxPacket q)
    (hcap : q.length ≤ 2 * maxPacket) (hn : q.count termByte = n) :
    ∃ t, drainAtMost (n + 1) s = .next t ∧ t.pend = (splitFrames q).2 ∧ termByte ∉ t.pend ∧
      t.returned = s.returned ++ ((splitFrames q).1.map (judge maxPacket) ++ [.noFrame]) := by
  induction n generalizing q s with
  | zero =>
    have hno : termByte ∉ q := List.count_eq_zero.1 hn
    obtain ⟨t, hpoll, ht, hret⟩ := h.exec_feed []
    rw [feedPure_of_fits_no_terminator (by rwa [List.append_nil]) (by rwa [List.append_nil]),
      List.append_nil] at ht hret
    refine ⟨t, drainAtMost_of_noFrame hpoll hret, ?_⟩
    rw [splitFrames_of_not_mem hno, ht.pend_eq]
    exact ⟨rfl, hno, hret⟩
  | succ n ih =>
    have hmem : termByte ∈ q := List.count_pos_iff.1 (by omega)
    obtain ⟨f, rest, rfl, hf⟩ := List.eq_append_cons_of_mem hmem
    obtain ⟨t, hpoll, ht, hret⟩ := h.exec_feed []
    rw [feedPure_of_fits hf (List.append_nil _) (by rwa [List.append_nil])] at ht hret
    have hrest : rest.length ≤ 2 * maxPacket := by
      rw [List.length_append, List.length_cons] at hcap
      omega
    have hcount : rest.count termByte = n := by
      rw [List.count_append, List.count_eq_zero_of_not_mem hf, List.count_cons_self] at hn
      omega
    obtain ⟨t', hdrain, hpend, hno, hret'⟩ := ih ht hrest hcount
    refine ⟨t', (drainAtMost_of_result hpoll hret (judge_ne_noFrame _ _)).trans hdrain, ?_⟩
    rw [splitFrames_append rest hf]
    exact ⟨hpend, hno, by rw [hret', hret]; simp⟩

/-- Settles O45: the bound of R72 is the number of terminators pending, plus one. -/
theorem drainSurfacesEveryPendingFrame : Obligations.DrainSurfacesEveryPendingFrame := by
  unfold Obligations.DrainSurfacesEveryPendingFrame
  intro s hc hlen hwf
  have hs : s.Holds s.maxPacket s.pend := ⟨rfl, hc, hwf, rfl⟩
  exact hs.drains (s.pend_length.trans_le hlen) rfl

end Sys2Proof.Machine
end
